-- ==== Sys2Proof/Word.lean ====
section
/-! DEFINITION. The machine word. The CORE handles 8-bit unsigned bytes only: memory cells (R20), registers
(R22), opcode and operand bytes (R80, R83, R84) and emitted values (R34). -/

namespace Sys2Proof

/-- An 8-bit unsigned value, 0 to 255 (R6: `CELL_WIDTH` and `REG_WIDTH` are 8). -/
abbrev Byte := BitVec 8

end Sys2Proof
end

