-- ==== Sys2Proof/Config.lean ====
section
/-! DEFINITION. The implementation parameters of 00_scope.md R6. Rule R7 leaves none of them open and rule R123
leaves no value to a draw, so every one is a number of the spec and there is no free value. -/

namespace Sys2Proof.Config

/-- `MEM_SIZE`: the number of memory cells; the legal addresses are 0 to 255 (R6, R20). -/
abbrev memSize : Nat := 256

/-- `NREG`: the number of general registers (R6, R22). -/
abbrev nreg : Nat := 8

/-- `SP_RESET` (R6, R29): one past the last cell, the stack pointer of an empty stack. -/
abbrev spReset : Nat := 256

/-- `PC_RESET` (R6, R26). -/
abbrev pcReset : Nat := 0

/-- `FETCH_WINDOW`: the bytes read for every instruction (R6, R80). -/
abbrev fetchWindow : Nat := 3

/-- `LOAD_BASE`: the address of the first image byte (R6, R262). -/
abbrev loadBase : Nat := 0

/-- The bound of R125 on the steps of a run. -/
abbrev runBound : Nat := 128

end Sys2Proof.Config
end

