-- ==== Sys2Proof/Syntax.lean ====
section
/-! DEFINITION. The instructions of the CORE: one constructor for each row of spec/opcode_table.json (R86). -/

namespace Sys2Proof

/-- An instruction with the operand bytes it uses. A register operand is a whole byte: 8 to 255 is legal in an
instruction and faults when it is executed (R83, R97). A byte the format marks "read, ignored" is no operand (R85). -/
inductive Instr where
  /-- HLT: stop execution (R160). -/
  | hlt
  /-- LDI reg, immediate (R170). -/
  | ldi (reg imm : Byte)
  /-- PRN reg (R180). -/
  | prn (reg : Byte)
  /-- MUL regA, regB (R145). -/
  | mul (regA regB : Byte)
  /-- PUSH reg (R190). -/
  | push (reg : Byte)
  /-- POP reg (R195). -/
  | pop (reg : Byte)
deriving DecidableEq, Repr

end Sys2Proof
end

