-- ==== Sys2Proof/WellFormed.lean ====
section
/-! DEFINITION. The check software must meet for an instruction to run: "every register operand must be 0 to 7"
(R272 b). It is NOT a decoding check: every operand byte decodes and can be encoded (R97), and an instruction that
fails this check takes the fault `OutOfRangeAddress(REG, i)` when it is executed (R25). Log entry 8. -/

namespace Sys2Proof

/-- The operand bytes an instruction uses as register indices, operand-A first (R24, R25, R82). -/
def Instr.registerOperands : Instr → List Byte
  | .hlt => []
  | .ldi reg _ => [reg]
  | .prn reg => [reg]
  | .mul regA regB => [regA, regB]
  | .push reg => [reg]
  | .pop reg => [reg]

/-- Every register operand names one of R0 to R7 (R272 b). -/
def Instr.wellFormed (i : Instr) : Bool :=
  i.registerOperands.all fun r => r.toNat ≤ 7

end Sys2Proof
end

