-- ==== Sys2Proof/Decode.lean ====
section
/-! DEFINITION. The encodings of 30_encoding.md: the opcode map (R86), the dispatch table (R36, R121), the decoder
(R81 to R85, R95 to R97) and the encoder (R80, R87). -/

namespace Sys2Proof

/-- The six defined opcodes (R86), named by their mnemonics. -/
inductive Opcode where
  | hlt | ldi | prn | mul | push | pop
deriving DecidableEq, Repr

/-- The formats of R82. -/
inductive Format where
  /-- No operand. -/
  | n
  /-- One register. -/
  | r
  /-- A register and an immediate. -/
  | ri
  /-- Two registers. -/
  | rr
deriving DecidableEq, Repr

/-- The instruction record of one step (R35): the three bytes of the fetch window, in address order (R55, R82). -/
structure InstrRecord where
  /-- The byte at `pc`. -/
  opcode : Byte
  /-- The byte at `pc + 1`. -/
  operandA : Byte
  /-- The byte at `pc + 2`. -/
  operandB : Byte
deriving DecidableEq, Repr

/-- Why bytes decode to no instruction. -/
inductive DecodeReject where
  /-- The opcode byte has no dispatch entry (R95). -/
  | unknownOpcode (op : Byte)
  /-- Fewer than the three bytes of a fetch window are given (R80). Only `decodeBytes` answers it. -/
  | shortWindow
deriving DecidableEq, Repr

/-- The opcode byte (R86, the binary column; all eight bits are fixed, R81). -/
def Opcode.byte : Opcode → Byte
  | .hlt => 0b00000001#8
  | .ldi => 0b10000010#8
  | .prn => 0b01000111#8
  | .mul => 0b10100010#8
  | .push => 0b01000101#8
  | .pop => 0b01000110#8

/-- The format of each opcode (R82). -/
def Opcode.format : Opcode → Format
  | .hlt => .n
  | .ldi => .ri
  | .prn => .r
  | .mul => .rr
  | .push => .r
  | .pop => .r

/-- The bytes an instruction of this format occupies in a program (R80, R102). -/
def Format.length : Format → Nat
  | .n => 1
  | .r => 2
  | .ri => 3
  | .rr => 3

/-- Look an opcode byte up: the whole byte is compared with the six values (R81), and every other byte has no
entry (R95). -/
def Opcode.ofByte (b : Byte) : Option Opcode :=
  if b = 0x01#8 then some .hlt
  else if b = 0x82#8 then some .ldi
  else if b = 0x47#8 then some .prn
  else if b = 0xA2#8 then some .mul
  else if b = 0x45#8 then some .push
  else if b = 0x46#8 then some .pop
  else none

/-- The dispatch table as the constant of 256 entries it is (R36, R121): entry `n` is that of opcode byte `n`. -/
def dispatchTable : List (Option Opcode) :=
  (List.range 256).map fun n => Opcode.ofByte (BitVec.ofNat 8 n)

/-- The opcode of an instruction. -/
def Instr.opcode : Instr → Opcode
  | .hlt => .hlt
  | .ldi _ _ => .ldi
  | .prn _ => .prn
  | .mul _ _ => .mul
  | .push _ => .push
  | .pop _ => .pop

/-- The instruction an opcode makes of its two operand bytes: operands are taken whole (R83, R84), ignored bytes
are dropped (R85). -/
def Opcode.instr (op : Opcode) (a b : Byte) : Instr :=
  match op with
  | .hlt => .hlt
  | .ldi => .ldi a b
  | .prn => .prn a
  | .mul => .mul a b
  | .push => .push a
  | .pop => .pop a

/-- Decode an instruction record. Total; the only rejection is an unknown opcode, and no operand value makes an
encoding illegal (R97). -/
def decode (w : InstrRecord) : Except DecodeReject Instr :=
  match Opcode.ofByte w.opcode with
  | some op => .ok (op.instr w.operandA w.operandB)
  | none => .error (.unknownOpcode w.opcode)

/-- Decode the fetch window at the head of a list of bytes, total on any list. -/
def decodeBytes : List Byte → Except DecodeReject Instr
  | op :: a :: b :: _ => decode ⟨op, a, b⟩
  | _ => .error .shortWindow

/-- The bytes of an instruction in a program, in address order (R80, R87): 1 for HLT, 2 for PRN, PUSH and POP,
3 for LDI and MUL. The bytes a format marks "read, ignored" are not written by the program (R102). -/
def encode : Instr → List Byte
  | .hlt => [Opcode.hlt.byte]
  | .ldi reg imm => [Opcode.ldi.byte, reg, imm]
  | .prn reg => [Opcode.prn.byte, reg]
  | .mul regA regB => [Opcode.mul.byte, regA, regB]
  | .push reg => [Opcode.push.byte, reg]
  | .pop reg => [Opcode.pop.byte, reg]

/-- Byte `k` (in address order) of a word numbered as spec/opcode_table.json numbers it, cut to its `nbits` bits:
byte 0 is bits 7..0. -/
def tableByte (nbits w k : Nat) : Byte :=
  BitVec.ofNat 8 (w % 2 ^ nbits / 256 ^ k)

/-- The three bytes of a table word in address order, the bits above `nbits` zero. -/
def tableWindow (nbits w : Nat) : InstrRecord :=
  ⟨tableByte nbits w 0, tableByte nbits w 1, tableByte nbits w 2⟩

/-- The instruction the decoder reads from a table word. -/
def decodeTableWord (nbits w : Nat) : Option Instr :=
  match decode (tableWindow nbits w) with
  | .ok i => some i
  | .error _ => none

end Sys2Proof
end

