-- ==== Sys2Proof/Machine/State.lean ====
section
/-! DEFINITION. The state of one CORE (10_state.md), as plain data; the reasons a step can have to stop; and the
state after reset (R39). -/

namespace Sys2Proof.Machine

/-- The two run states of the engine (R32). -/
inductive RunState where
  | running
  | halted
deriving DecidableEq, Repr

/-- Where an out-of-range access went: the memory or the register file (R210, codes 2 and 3). -/
inductive AddressSpace where
  | mem
  | reg
deriving DecidableEq, Repr

/-- An ALU operation name (R140): ADD, MUL, or any other name, which the ALU does not support (R143). The type of
the other names is a DESIGN CHOICE (log entry 5). -/
inductive AluOperation where
  | add
  | mul
  | other (name : String)
deriving DecidableEq, Repr

/-- The kind of a CORE fault (R210). -/
inductive FaultKind where
  | unknownOpcode
  | outOfRangeAddress (space : AddressSpace)
  | stackOverflow
  | stackUnderflow
  | unsupportedAluOperation
deriving DecidableEq, Repr

/-- The value a fault record carries: "the value named in the fault's parentheses" (R211). -/
inductive FaultInfo where
  /-- The opcode byte, for `UnknownOpcode`. -/
  | opcode (op : Byte)
  /-- The address, for `OutOfRangeAddress(MEM, ·)`. -/
  | address (a : Nat)
  /-- The register index, for `OutOfRangeAddress(REG, ·)`. -/
  | index (i : Byte)
  /-- The stack pointer, for `StackOverflow` and `StackUnderflow`. -/
  | stackPointer (sp : Nat)
  /-- The operation, for `UnsupportedALUOperation`. -/
  | operation (op : AluOperation)
deriving DecidableEq, Repr

/-- What a `raise` names (R11, R210): the fault with the value in its parentheses. -/
inductive FaultCause where
  | unknownOpcode (op : Byte)
  | outOfRangeMem (a : Nat)
  | outOfRangeReg (i : Byte)
  | stackOverflow (sp : Nat)
  | stackUnderflow (sp : Nat)
  | unsupportedAluOperation (op : AluOperation)
deriving DecidableEq, Repr

/-- The fault record {code, kind, pc, info} (R211). -/
structure FaultRecord where
  /-- The number of R210, 1 to 6. -/
  code : Nat
  kind : FaultKind
  /-- The program counter at the start of the faulting step. -/
  pc : Nat
  info : FaultInfo
deriving DecidableEq, Repr

/-- The 256 cells, as a list of the cells that differ from 0, by rising address (`Memory.wf`, Machine/Ops.lean). -/
abbrev Memory := List Host.Cell

/-- All the state of one CORE (R39); R37 and R38 say there is no other. -/
structure State where
  /-- The memory array: program and stack (R20, R21). -/
  mem : Memory
  /-- The register file: `x[i]` is R`i` (R22). -/
  x : Vector Byte 8
  /-- The program counter, 0 to 256 (R26, R27). -/
  pc : Nat
  /-- The stack pointer, 0 to 256 (R29, R30). -/
  sp : Nat
  /-- The run state (R32). -/
  run : RunState
  /-- The fault record (R33). -/
  fault : Option FaultRecord
  /-- The output sequence, oldest value first (R34). -/
  out : List Byte
deriving DecidableEq, Repr

/-- Why a state has no step. A CORE fault is NOT one of these: its entry is a next state (R222). -/
inductive Fault where
  /-- Raised by `step` from a state halted by HLT (`run = HALTED`, `fault = none`): "A state with `run = HALTED` has
  no step; it is final" (R111, R231). Safe: the hardware has no step there either. -/
  | haltedNormal
  /-- Raised by `step` from a state halted by a CORE fault, with its record (R111, R231). Safe, as above. -/
  | haltedFatal (record : FaultRecord)
deriving DecidableEq, Repr

/-- Why the model gives an instruction no meaning. -/
inductive Refusal where
  /-- Raised by an arm of `exec` whose instruction has no meaning yet; no arm does. Safe. -/
  | notModelled (mnemonic : String)
deriving DecidableEq, Repr

/-- The state right after reset, before the host's image load (R39, R250). -/
def State.reset : State where
  mem := []
  x := Vector.replicate 8 0#8
  pc := Config.pcReset
  sp := Config.spReset
  run := .running
  fault := none
  out := []

end Sys2Proof.Machine
end

