-- ==== Sys2Proof/Machine/Ops.lean ====
section
/-! DEFINITION. The operations every step is made of: field updates, the memory (20_memory.md), the checked
accessors (R12), fetch (R112), taking a fault (R222) and the end of a step (R117, R118). -/

namespace Sys2Proof.Machine

/-! ### Field updates -/

/-- Replace the memory. -/
def State.setMem (s : State) (m : Memory) : State := { s with mem := m }

/-- Write one register. -/
def State.setReg (s : State) (i : Fin 8) (v : Byte) : State := { s with x := s.x.set i v }

/-- Write the program counter. -/
def State.setPc (s : State) (n : Nat) : State := { s with pc := n }

/-- Write the stack pointer. -/
def State.setSp (s : State) (n : Nat) : State := { s with sp := n }

/-- Write the run state. -/
def State.setRun (s : State) (r : RunState) : State := { s with run := r }

/-- Write the fault record. -/
def State.setFault (s : State) (f : Option FaultRecord) : State := { s with fault := f }

/-- Append a value to the output sequence (R11, R34). -/
def State.emit (s : State) (v : Byte) : State := { s with out := s.out ++ [v] }

/-! ### Memory -/

/-- What a cell nothing has written reads as: the reset contents, 0 (R20, R39). -/
def Memory.unlisted : Byte := 0#8

/-- The canonical form: addresses strictly rising and inside the address space, and no entry equal to what an
unlisted address reads as. -/
abbrev Memory.wf (m : Memory) : Prop :=
  m.Pairwise (fun c d => c.1 < d.1) ∧ ∀ c ∈ m, c.2 ≠ Memory.unlisted ∧ c.1 < Config.memSize

/-- The value of one cell (R53). -/
def Memory.read : Memory → Nat → Byte
  | [], _ => Memory.unlisted
  | (k, v) :: m, a => if k = a then v else Memory.read m a

/-- Replace one whole cell (R53), keeping the canonical form. -/
def Memory.write : Memory → Nat → Byte → Memory
  | [], a, v => if v = Memory.unlisted then [] else [(a, v)]
  | (k, b) :: m, a, v =>
    if a < k then
      if v = Memory.unlisted then (k, b) :: m else (a, v) :: (k, b) :: m
    else if a = k then
      if v = Memory.unlisted then m else (a, v) :: m
    else
      (k, b) :: Memory.write m a v

/-- Write bytes at consecutive addresses from `a`; a byte that would fall outside the address space is left out. -/
def Memory.writeBytes : Memory → Nat → List Byte → Memory
  | m, _, [] => m
  | m, a, v :: vs => Memory.writeBytes (if a < Config.memSize then m.write a v else m) (a + 1) vs

/-! ### Checked accessors -/

/-- `MemRead(a, 1)`: an address above 255 raises `OutOfRangeAddress(MEM, a)` (R12, R52, R53). -/
def memRead (a : Nat) (s : State) : Except FaultCause Byte :=
  if a < Config.memSize then .ok (s.mem.read a) else .error (.outOfRangeMem a)

/-- `MemWrite(a, 1, v)` (R12, R52, R53). -/
def memWrite (a : Nat) (v : Byte) (s : State) : Except FaultCause State :=
  if a < Config.memSize then .ok (s.setMem (s.mem.write a v)) else .error (.outOfRangeMem a)

/-- `x[i]`, the register file's `get(i)`: an index above 7 raises `OutOfRangeAddress(REG, i)`; the index is never
reduced modulo 8 (R12, R25). -/
def regRead (i : Byte) (s : State) : Except FaultCause Byte :=
  if h : i.toNat < 8 then .ok s.x[i.toNat] else .error (.outOfRangeReg i)

/-- `x[i] <- v`, the register file's `set(i, v)` (R12, R25). -/
def regWrite (i v : Byte) (s : State) : Except FaultCause State :=
  if h : i.toNat < 8 then .ok (s.setReg ⟨i.toNat, h⟩ v) else .error (.outOfRangeReg i)

/-! ### Fetch -/

/-- Fetch: three reads, in address order, before anything else (R112, R113). -/
def fetch (s : State) : Except FaultCause InstrRecord :=
  match memRead s.pc s with
  | .error f => .error f
  | .ok op =>
    match memRead (s.pc + 1) s with
    | .error f => .error f
    | .ok a =>
      match memRead (s.pc + 2) s with
      | .error f => .error f
      | .ok b => .ok ⟨op, a, b⟩

/-! ### Taking a fault -/

/-- The fault codes (R210). -/
def FaultKind.code : FaultKind → Nat
  | .unknownOpcode => 1
  | .outOfRangeAddress .mem => 2
  | .outOfRangeAddress .reg => 3
  | .stackOverflow => 4
  | .stackUnderflow => 5
  | .unsupportedAluOperation => 6

/-- The kind of what was raised (R210). -/
def FaultCause.kind : FaultCause → FaultKind
  | .unknownOpcode _ => .unknownOpcode
  | .outOfRangeMem _ => .outOfRangeAddress .mem
  | .outOfRangeReg _ => .outOfRangeAddress .reg
  | .stackOverflow _ => .stackOverflow
  | .stackUnderflow _ => .stackUnderflow
  | .unsupportedAluOperation _ => .unsupportedAluOperation

/-- The value in the fault's parentheses (R211). -/
def FaultCause.info : FaultCause → FaultInfo
  | .unknownOpcode op => .opcode op
  | .outOfRangeMem a => .address a
  | .outOfRangeReg i => .index i
  | .stackOverflow sp => .stackPointer sp
  | .stackUnderflow sp => .stackPointer sp
  | .unsupportedAluOperation op => .operation op

/-- The record of a fault raised at program counter `pc` (R211). -/
def FaultCause.record (f : FaultCause) (pc : Nat) : FaultRecord where
  code := f.kind.code
  kind := f.kind
  pc := pc
  info := f.info

/-- Taking a fault, from the state at the START of the step: `run <- HALTED` and the record; nothing else changes
(R222). There is no handler and no saved register (R223), and no return from it (R230). -/
def takeFault (f : FaultCause) (s : State) : State :=
  (s.setRun .halted).setFault (some (f.record s.pc))

/-- Why a halted state has no step (R111, R231). -/
def haltedReason (s : State) : Fault :=
  match s.fault with
  | none => .haltedNormal
  | some r => .haltedFatal r

/-! ### The handler contract and the end of a step -/

/-- What a handler that does not raise hands the engine: the state it wrote and the pair (pc_delta,
continue_flag) (R116). -/
structure Handled where
  state : State
  delta : Nat
  cont : Bool
deriving DecidableEq, Repr

/-- The run state a continue flag asks for (R117). -/
def runOf (cont : Bool) : RunState := if cont then .running else .halted

/-- The engine's end of a step that began in `s`: apply the continue flag and then the pc delta (R117, R118), or,
when the handler raised, discard what it did and take the fault (R13, R222). -/
def finish (s : State) : Except FaultCause Handled → State
  | .error f => takeFault f s
  | .ok h => (h.state.setRun (runOf h.cont)).setPc (h.state.pc + h.delta)

end Sys2Proof.Machine
end

