-- ==== Sys2Proof/Machine/Operands.lean ====
section
/-! DEFINITION. Which registers each instruction reads and writes, as 10_state.md R24 tables it. The operand forms
themselves are the checked accessors `regRead` and `regWrite` of Machine/Ops.lean (a register operand, R83) and the
operand byte taken whole (LDI's immediate, R84); there are no others. -/

namespace Sys2Proof.Machine

/-- The register indices an instruction reads (R24). -/
def registersRead : Instr → List Byte
  | .hlt => []
  | .ldi _ _ => []
  | .prn reg => [reg]
  | .mul regA regB => [regA, regB]
  | .push reg => [reg]
  | .pop _ => []

/-- The register indices an instruction writes (R24). -/
def registersWritten : Instr → List Byte
  | .hlt => []
  | .ldi reg _ => [reg]
  | .prn _ => []
  | .mul regA _ => [regA]
  | .push _ => []
  | .pop reg => [reg]

end Sys2Proof.Machine
end

