-- ==== Sys2Proof/Machine/Flags.lean ====
section
/-! DEFINITION. The pair (pc_delta, continue_flag) each handler reports (R90, R116). The CORE has no status flag and
no condition code, so there is no other flag to compute (R37). -/

namespace Sys2Proof.Machine

/-- The pc delta of each opcode (R90). -/
def pcDelta : Opcode → Nat
  | .hlt => 0
  | .ldi => 3
  | .prn => 2
  | .mul => 3
  | .push => 2
  | .pop => 2

/-- The continue flag of each opcode: false for HLT only (R90, R117). -/
def continueFlag : Opcode → Bool
  | .hlt => false
  | .ldi => true
  | .prn => true
  | .mul => true
  | .push => true
  | .pop => true

/-- The `return` of a handler: the state it wrote with the fixed pair of its opcode (R116). -/
def report (op : Opcode) (s : State) : Handled where
  state := s
  delta := pcDelta op
  cont := continueFlag op

end Sys2Proof.Machine
end

