-- ==== Sys2Proof/Machine/Alu.lean ====
section
/-! DEFINITION. The ALU (R140 to R144) and MUL (R145). -/

namespace Sys2Proof.Machine

/-- The ADD of the ALU: the exact sum, reduced modulo 256 (R141, R144). -/
def aluAdd (a b : Byte) : Byte := BitVec.ofNat 8 ((a.toNat + b.toNat) % 256)

/-- The MUL of the ALU: the exact product, reduced modulo 256 (R142, R144). -/
def aluMul (a b : Byte) : Byte := BitVec.ofNat 8 ((a.toNat * b.toNat) % 256)

/-- The result of an ALU operation on two values, or `UnsupportedALUOperation` (R140, R143). -/
def aluResult (op : AluOperation) (a b : Byte) : Except FaultCause Byte :=
  match op with
  | .add => .ok (aluAdd a b)
  | .mul => .ok (aluMul a b)
  | .other name => .error (.unsupportedAluOperation (.other name))

/-- `apply(operation, dst, src)`: both reads, dst first, then the operation, then the one write (R140). -/
def aluApply (op : AluOperation) (dst src : Byte) (s : State) : Except FaultCause State :=
  match regRead dst s with
  | .error f => .error f
  | .ok a =>
    match regRead src s with
    | .error f => .error f
    | .ok b =>
      match aluResult op a b with
      | .error f => .error f
      | .ok r => regWrite dst r s

/-- `H_MUL(A, B)` (R145). -/
def handleMul (regA regB : Byte) (s : State) : Except FaultCause Handled :=
  match aluApply .mul regA regB s with
  | .error f => .error f
  | .ok s' => .ok (report .mul s')

/-- MUL: multiply two registers into the first (R145). -/
def execMul (regA regB : Byte) (s : State) : Host.Outcome State Fault Refusal :=
  .next (finish s (handleMul regA regB s))

end Sys2Proof.Machine
end

