-- ==== Sys2Proof/Machine/Control.lean ====
section
/-! DEFINITION. Control: HLT (R160). The CORE has no jump, branch, call or return (R5). -/

namespace Sys2Proof.Machine

/-- `H_HLT(A, B)`: no effect but its pair (0, false) (R160). -/
def handleHlt (s : State) : Except FaultCause Handled := .ok (report .hlt s)

/-- HLT: stop execution; the pc stays at the HLT byte (R120, R160). -/
def execHlt (s : State) : Host.Outcome State Fault Refusal :=
  .next (finish s (handleHlt s))

end Sys2Proof.Machine
end

