-- ==== Sys2Proof/Machine/Output.lean ====
section
/-! DEFINITION. Output: PRN (R180). The port is write-only and not mapped in memory (R51, R181). -/

namespace Sys2Proof.Machine

/-- `H_PRN(A, B)` (R180). -/
def handlePrn (reg : Byte) (s : State) : Except FaultCause Handled :=
  match regRead reg s with
  | .error f => .error f
  | .ok v => .ok (report .prn (s.emit v))

/-- PRN: append a register's value to the output sequence (R180). -/
def execPrn (reg : Byte) (s : State) : Host.Outcome State Fault Refusal :=
  .next (finish s (handlePrn reg s))

end Sys2Proof.Machine
end

