-- ==== Sys2Proof/Machine/Register.lean ====
section
/-! DEFINITION. Register load: LDI (R170). -/

namespace Sys2Proof.Machine

/-- `H_LDI(A, B)`: the immediate is operand-B taken whole (R84, R170). -/
def handleLdi (reg imm : Byte) (s : State) : Except FaultCause Handled :=
  match regWrite reg imm s with
  | .error f => .error f
  | .ok s' => .ok (report .ldi s')

/-- LDI: load an immediate into a register (R170). -/
def execLdi (reg imm : Byte) (s : State) : Host.Outcome State Fault Refusal :=
  .next (finish s (handleLdi reg imm s))

end Sys2Proof.Machine
end

