-- ==== Sys2Proof/Machine/Stack.lean ====
section
/-! DEFINITION. Stack: PUSH (R190) and POP (R195). -/

namespace Sys2Proof.Machine

/-- The address a PUSH stores to: the decrement comes before the write (R190). -/
def pushAddress (s : State) : Nat := s.sp - 1

/-- `H_PUSH(A, B)`: the register index is checked before the stack bound (R190, R220). -/
def handlePush (reg : Byte) (s : State) : Except FaultCause Handled :=
  match regRead reg s with
  | .error f => .error f
  | .ok v =>
    if s.sp = 0 then .error (.stackOverflow s.sp)
    else
      match memWrite (pushAddress s) v (s.setSp (pushAddress s)) with
      | .error f => .error f
      | .ok s' => .ok (report .push s')

/-- PUSH: push a register onto the stack (R190). -/
def execPush (reg : Byte) (s : State) : Host.Outcome State Fault Refusal :=
  .next (finish s (handlePush reg s))

/-- `H_POP(A, B)`: the register index is checked before the stack bound, which is checked before the read; the cell
read is not cleared (R61, R195, R220). -/
def handlePop (reg : Byte) (s : State) : Except FaultCause Handled :=
  if 7 < reg.toNat then .error (.outOfRangeReg reg)
  else if s.sp = 256 then .error (.stackUnderflow s.sp)
  else
    match memRead s.sp s with
    | .error f => .error f
    | .ok v =>
      match regWrite reg v s with
      | .error f => .error f
      | .ok s' => .ok (report .pop (s'.setSp (s.sp + 1)))

/-- POP: pop the top of the stack into a register (R195). -/
def execPop (reg : Byte) (s : State) : Host.Outcome State Fault Refusal :=
  .next (finish s (handlePop reg s))

end Sys2Proof.Machine
end

