-- ==== Sys2Proof/Machine/Step.lean ====
section
/-! DEFINITION. One step of the engine (R110 to R119), and the placing of an instruction where the next step fetches
it. -/

namespace Sys2Proof.Machine

/-- One step (R119): none from HALTED (R111); else fetch (R112, R113), look up (R114), and run the instruction
(R115 to R118). A fault of the fetch or the look-up is taken here, one of a handler by `finish`. -/
def step (s : State) : Host.Outcome State Fault Refusal :=
  match s.run with
  | .halted => .fault (haltedReason s)
  | .running =>
    match fetch s with
    | .error f => .next (takeFault f s)
    | .ok w =>
      match decode w with
      | .error _ => .next (takeFault (.unknownOpcode w.opcode) s)
      | .ok i => exec i s

/-- `s` with the instruction of a table word stored where the next step fetches: its three bytes at `pc`, `pc + 1`
and `pc + 2` (R112). It stands for the host's image load (R262); log entry 7. -/
def State.withFetchWord (s : State) (nbits w : Nat) : State :=
  s.setMem (s.mem.writeBytes s.pc [tableByte nbits w 0, tableByte nbits w 1, tableByte nbits w 2])

end Sys2Proof.Machine
end

