-- ==== Sys2Proof/Machine/HostInterface.lean ====
section
/-! DEFINITION. What the host does around a run and sees of it (70_reset_and_hazards.md R252, R262 to R268): load,
run to the end, read. Loader and program text are software outside the CORE (R4); no step calls anything of this
file. Log entries 9 and 10. -/

namespace Sys2Proof.Machine

/-! ### Image and program text -/

/-- Why the host refuses to start a run (R262, R263). -/
inductive LoadError where
  /-- A significant line is no base-2 literal (R218, R263). -/
  | malformedProgram
  /-- A literal above 255 (R262, decision D17). -/
  | literalTooLarge
  /-- More than 256 image bytes (R262, decision D17). -/
  | imageTooLong
deriving DecidableEq, Repr

/-- The image in a new instance's memory from address 0 (R252, R262): every image of at most 256 bytes is accepted
(R264), a longer one is refused. -/
def loadImage (image : List Byte) : Except LoadError State :=
  if image.length ≤ Config.memSize then
    .ok (State.reset.setMem (State.reset.mem.writeBytes Config.loadBase image))
  else .error .imageTooLong

/-- The lines of a text: what newlines separate (R102). -/
def splitLines : List Char → List (List Char)
  | [] => [[]]
  | c :: cs =>
    if c = '\n' then [] :: splitLines cs
    else
      match splitLines cs with
      | [] => [[c]]
      | l :: ls => (c :: l) :: ls

/-- Split off anything after `#` (R262). -/
def stripComment (l : List Char) : List Char := l.takeWhile (· ≠ '#')

/-- Trim surrounding whitespace (R262); which characters count as white is log entry 10. -/
def trim (l : List Char) : List Char :=
  ((l.dropWhile Char.isWhitespace).reverse.dropWhile Char.isWhitespace).reverse

/-- The value of a string of the digits 0 and 1, most significant first; none for any other spelling
(91_not_in_source.md N16). -/
def parseBinary : List Char → Option Nat
  | [] => none
  | l =>
    if l.all (fun c => c = '0' || c = '1') then
      some (l.foldl (fun n c => 2 * n + (if c = '1' then 1 else 0)) 0)
    else none

/-- What one line of the program text gives: none for a line to skip, else its image byte (R262, R263). -/
def parseLine (l : List Char) : Except LoadError (Option Byte) :=
  match trim (stripComment l) with
  | [] => .ok none
  | c :: cs =>
    match parseBinary (c :: cs) with
    | none => .error .malformedProgram
    | some n => if n < 256 then .ok (some (BitVec.ofNat 8 n)) else .error .literalTooLarge

/-- The image of the lines: the k-th significant line is byte k (R262). -/
def assembleLines : List (List Char) → Except LoadError (List Byte)
  | [] => .ok []
  | l :: ls =>
    match parseLine l with
    | .error e => .error e
    | .ok none => assembleLines ls
    | .ok (some b) =>
      match assembleLines ls with
      | .error e => .error e
      | .ok bs => .ok (b :: bs)

/-- Load a program text into a new instance (R262, R263). -/
def loadText (text : List Char) : Except LoadError State :=
  match assembleLines (splitLines text) with
  | .error e => .error e
  | .ok image => loadImage image

/-! ### A run -/

/-- The state after at most `k` steps: the engine steps while it has a step (R111, R252). -/
def runFor : Nat → State → State
  | 0, s => s
  | k + 1, s =>
    match step s with
    | .next t => runFor k t
    | .fault _ => s
    | .refused _ => s

/-- The exit status the host reports at the end of a run (R161, R224, R265). -/
def exitStatus (s : State) : Nat :=
  match s.fault with
  | none => 0
  | some _ => 1

/-- What the host reports of a fatal stop (R266); the spelling of the text is no part of it. -/
inductive FaultReport where
  /-- "instruction not found", identifying the opcode. -/
  | instructionNotFound (op : Byte)
  /-- The kind and the record of any other fault. -/
  | faultOf (record : FaultRecord)
deriving DecidableEq, Repr

/-- The host's report of a record (R266). -/
def faultReport (r : FaultRecord) : FaultReport :=
  match r.info with
  | .opcode op => .instructionNotFound op
  | .address _ => .faultOf r
  | .index _ => .faultOf r
  | .stackPointer _ => .faultOf r
  | .operation _ => .faultOf r

/-- The decimal numbers the host renders, one a line (R34, R265). -/
def outputNumbers (s : State) : List Nat := s.out.map BitVec.toNat

/-- A model's observation of a run: the output, the exit status and the final state (R265). -/
structure Observation where
  out : List Byte
  exitStatus : Nat
  final : State
deriving DecidableEq, Repr

/-- The observation of an ended run; none while the run goes on (R265, R278). -/
def observe (s : State) : Option Observation :=
  match s.run with
  | .running => none
  | .halted => some ⟨s.out, exitStatus s, s⟩

/-- The host's single entry point: load, then run to the end (R252, R267), which R125 puts within 128 steps. -/
def invoke (text : List Char) : Except LoadError (Option Observation) :=
  match loadText text with
  | .error e => .error e
  | .ok s => .ok (observe (runFor Config.runBound s))

end Sys2Proof.Machine
end

