-- ==== Sys2Proof/Safety.lean ====
section
/-! DEFINITION. What holds of every state of a run, and how a run may end. -/

namespace Sys2Proof.Machine

/-- What the window at the pc decodes to (R112, R114). Meaningful where the window lies in memory, `pc ≤ 253`. -/
def State.currentInstr (s : State) : Except DecodeReject Instr :=
  decode ⟨s.mem.read s.pc, s.mem.read (s.pc + 1), s.mem.read (s.pc + 2)⟩

/-- The state after instructions executed one after the other, each completing with the machine still RUNNING; none
if one halts it. -/
def execSeq : List Instr → State → Option State
  | [], s => some s
  | i :: is, s =>
    match exec i s with
    | .next t => if t.run = .running then execSeq is t else none
    | .fault _ => none
    | .refused _ => none

/-- The run ended by HLT (R231). -/
def State.normalHalt (s : State) : Prop := s.run = .halted ∧ s.fault = none

/-- The run ended by a fault (R231). -/
def State.fatalStop (s : State) : Prop := s.run = .halted ∧ ∃ r, s.fault = some r

/-- What the record of a stopped machine says is true of its state (R210, R211): `pc` is the pc, which a fault
leaves alone (R222); the code is that of R210; and the info is the value that caused the fault. -/
def FaultRecord.tells (r : FaultRecord) (s : State) : Prop :=
  r.pc = s.pc ∧
  match r.kind, r.info with
  | .unknownOpcode, .opcode op =>
    r.code = 1 ∧ s.pc ≤ 253 ∧ s.mem.read s.pc = op ∧ Opcode.ofByte op = none
  | .outOfRangeAddress .mem, .address a => r.code = 2 ∧ 254 ≤ s.pc ∧ a = 256
  | .outOfRangeAddress .reg, .index i => r.code = 3 ∧ s.pc ≤ 253 ∧ 7 < i.toNat
  | .stackOverflow, .stackPointer n => r.code = 4 ∧ s.pc ≤ 253 ∧ n = 0 ∧ s.sp = 0
  | .stackUnderflow, .stackPointer n => r.code = 5 ∧ s.pc ≤ 253 ∧ n = 256 ∧ s.sp = 256
  | _, _ => False

/-- The invariant of every state of a run: the memory's canonical form, the ranges of `pc` (R27) and `sp` (R30), no
fault record while RUNNING (R33), and a record that tells the truth (R211). -/
structure State.Inv (s : State) : Prop where
  memWf : s.mem.wf
  pcRange : s.pc ≤ 256
  spRange : s.sp ≤ 256
  runningNoFault : s.run = .running → s.fault = none
  recordTells : ∀ r, s.fault = some r → r.tells s

/-- The states of runs: a loaded image, and every next state from one (R252). -/
inductive Reachable : State → Prop where
  | loaded (image : List Byte) (s : State) (h : loadImage image = .ok s) : Reachable s
  | stepped (s t : State) (hs : Reachable s) (h : step s = .next t) : Reachable t

/-! ### Program texts, as the claims about the loader speak of them (R102, R262, log entry 10) -/

/-- A line of a program text, in the parts R262 tells apart: white space, the remainder, white space, and a comment
if there is one. -/
structure ProgramLine where
  lead : List Char
  content : List Char
  trail : List Char
  /-- What follows the `#`, where the line has one. -/
  comment : Option (List Char)
deriving DecidableEq, Repr

/-- The line as it stands in the text. -/
def ProgramLine.text (l : ProgramLine) : List Char :=
  l.lead ++ l.content ++ l.trail ++ (match l.comment with
    | none => []
    | some c => '#' :: c)

/-- The parts are what they are called: white space around a remainder that neither begins nor ends white and holds
no `#`, and no newline in the line. Every line has such parts (`ProgramLine.exists_formed`, Laws/HostInterface.lean). -/
structure ProgramLine.Formed (l : ProgramLine) : Prop where
  leadWhite : ∀ c ∈ l.lead, c.isWhitespace = true ∧ c ≠ '\n'
  trailWhite : ∀ c ∈ l.trail, c.isWhitespace = true ∧ c ≠ '\n'
  contentPlain : ∀ c ∈ l.content, c ≠ '#' ∧ c ≠ '\n'
  contentHead : ∀ c, l.content.head? = some c → c.isWhitespace = false
  contentLast : ∀ c, l.content.getLast? = some c → c.isWhitespace = false
  commentOneLine : ∀ c, l.comment = some c → '\n' ∉ c

/-- Binary digits as characters, most significant first. -/
def digitsText (ds : List Bool) : List Char := ds.map fun d => if d then '1' else '0'

/-- The number a string of binary digits writes, by Mathlib's positional value. -/
def digitsValue (ds : List Bool) : Nat := Nat.ofDigits 2 (ds.reverse.map Bool.toNat)

/-- A line that carries the literal `ds`, or no literal where `ds` is empty, and can be loaded. -/
def ProgramLine.Carries (l : ProgramLine) (ds : List Bool) : Prop :=
  l.Formed ∧ l.content = digitsText ds ∧ digitsValue ds < 256

/-- The image byte of a literal; none of a line without one. -/
def literalByte : List Bool → Option Byte
  | [] => none
  | ds => some (BitVec.ofNat 8 (digitsValue ds))

/-- A line that is neither to be skipped nor a base-2 literal (R263). -/
def ProgramLine.Malformed (l : ProgramLine) : Prop :=
  l.Formed ∧ ∃ c ∈ l.content, c ≠ '0' ∧ c ≠ '1'

/-- A line whose base-2 literal is above 255 (R262, decision D17). -/
def ProgramLine.TooLarge (l : ProgramLine) : Prop :=
  l.Formed ∧ ∃ ds, l.content = digitsText ds ∧ 256 ≤ digitsValue ds

end Sys2Proof.Machine
end

