-- ==== Sys2Proof/Certificates/Slice0/Obligations.lean ====
section
/-! DEFINITION. The statements for the provers. Each docstring names the rules of spec/ the statement formalises.
A fault entry is written out as the record update it is (R222): `run`, `fault`, and nothing else. -/

open Sys2Proof Sys2Proof.Machine

/-! ### Reset, load and the invariant -/

/-- R39. Every field at its reset value; then, after the host's image load, the image bytes from address 0 up, every
other cell 0, and every other field as reset left it. -/
def Obligations.ResetAndImageLoadGiveTheTabledState : Prop :=
  ((∀ a, State.reset.mem.read a = 0#8) ∧ (∀ i : Fin 8, State.reset.x[i] = 0#8) ∧ State.reset.pc = 0 ∧
    State.reset.sp = 256 ∧ State.reset.run = .running ∧ State.reset.fault = none ∧ State.reset.out = []) ∧
  ∀ image : List Byte, image.length ≤ 256 →
    ∃ s, loadImage image = .ok s ∧ (∀ (k : Nat) (h : k < image.length), s.mem.read k = image[k]) ∧
      (∀ a, image.length ≤ a → s.mem.read a = 0#8) ∧ s = { State.reset with mem := s.mem }

/-- The invariant holds at reset (the model's invariant over R27, R30, R33). -/
def Obligations.InvariantHoldsAtReset : Prop := State.reset.Inv

/-- Every step keeps the invariant, from every state that meets it: canonical memory, `pc` and `sp` in 0 to 256
(R27, R30), no fault record while RUNNING (R33), and a record that tells the truth (R210, R211). -/
def Obligations.EveryStepKeepsTheInvariant : Prop :=
  ∀ s t : State, s.Inv → step s = .next t → t.Inv

/-- Every state of every run from a loaded image meets the invariant. -/
def Obligations.EveryReachableStateMeetsTheInvariant : Prop :=
  ∀ s : State, Reachable s → s.Inv

/-! ### The step -/

/-- R119, the last branch: a step whose window lies in memory and decodes is `exec` of the decoded instruction. -/
def Obligations.StepRunsTheDecodedInstruction : Prop :=
  ∀ (s : State) (i : Instr), s.run = .running → s.pc ≤ 253 → s.currentInstr = .ok i → step s = exec i s

/-- R113: a window that leaves memory faults with address 256, whatever bytes are in it. -/
def Obligations.FetchBeyondMemoryFaults : Prop :=
  ∀ s : State, s.run = .running → s.pc ≤ 256 → 255 < s.pc + 2 →
    step s = .next { s with
      run := .halted
      fault := some ⟨2, .outOfRangeAddress .mem, s.pc, .address 256⟩ }

/-- R114: a fetched byte without a dispatch entry (R95: none of the six of R86) faults, naming the byte. -/
def Obligations.UnknownOpcodeFaults : Prop :=
  ∀ s : State, s.run = .running → s.pc ≤ 253 →
    s.mem.read s.pc ∉ [0x01#8, 0x82#8, 0x47#8, 0xA2#8, 0x45#8, 0x46#8] →
    step s = .next { s with
      run := .halted
      fault := some ⟨1, .unknownOpcode, s.pc, .opcode (s.mem.read s.pc)⟩ }

/-- R111: the engine has a step exactly while RUNNING; a HALTED state is final under any number of steps. -/
def Obligations.OnlyARunningMachineHasAStep : Prop :=
  ∀ s : State, ((∃ t, step s = .next t) ↔ s.run = .running) ∧ (s.run = .halted → ∀ k, runFor k s = s)

/-- R231 as the model's outcomes say it (log entry 1): the stop of a halted state is that of a normal halt without a
record, and carries the record with one. -/
def Obligations.HaltedStepNamesItsFinalState : Prop :=
  ∀ s : State, (s.normalHalt → step s = .fault .haltedNormal) ∧
    ∀ r, s.run = .halted → s.fault = some r → step s = .fault (.haltedFatal r)

/-! ### The instructions: encoding, result, frame, faults -/

/-- R160: HLT, whatever its ignored bytes, halts and changes nothing else, the pc included; at 254 or 255 its fetch
faults instead. -/
def Obligations.HltHaltsAndChangesNothingElse : Prop :=
  (∀ a b : Byte, decode ⟨0b00000001#8, a, b⟩ = .ok .hlt) ∧
  (∀ s : State, exec .hlt s = .next { s with run := .halted }) ∧
  (∀ s : State, s.run = .running → s.pc ≤ 253 → s.mem.read s.pc = 0x01#8 →
    step s = .next { s with run := .halted }) ∧
  (∀ s : State, s.run = .running → s.pc = 254 ∨ s.pc = 255 → s.mem.read s.pc = 0x01#8 →
    step s = .next { s with
      run := .halted
      fault := some ⟨2, .outOfRangeAddress .mem, s.pc, .address 256⟩ })

/-- R170: LDI stores its immediate into its register, advances the pc by 3 and changes nothing else; with an index
above 7 it faults. -/
def Obligations.LdiLoadsItsImmediate : Prop :=
  ∀ (reg imm : Byte) (s : State),
    decode ⟨0b10000010#8, reg, imm⟩ = .ok (.ldi reg imm) ∧
    (∀ _ : reg.toNat ≤ 7, ∃ t, exec (.ldi reg imm) s = .next t ∧
      t.x[reg.toNat] = imm ∧ (∀ j : Fin 8, j.val ≠ reg.toNat → t.x[j] = s.x[j]) ∧
      t.pc = s.pc + 3 ∧ t.run = .running ∧
      t.mem = s.mem ∧ t.sp = s.sp ∧ t.fault = s.fault ∧ t.out = s.out) ∧
    (7 < reg.toNat → exec (.ldi reg imm) s = .next { s with
      run := .halted
      fault := some ⟨3, .outOfRangeAddress .reg, s.pc, .index reg⟩ })

/-- R180: PRN appends its register's value to the output, advances the pc by 2 and changes nothing else, whatever its
ignored byte; with an index above 7 it faults and appends nothing. -/
def Obligations.PrnEmitsItsRegister : Prop :=
  ∀ (reg : Byte) (s : State),
    (∀ b : Byte, decode ⟨0b01000111#8, reg, b⟩ = .ok (.prn reg)) ∧
    (∀ _ : reg.toNat ≤ 7, ∃ t, exec (.prn reg) s = .next t ∧
      t.out = s.out ++ [s.x[reg.toNat]] ∧ t.x = s.x ∧
      t.pc = s.pc + 2 ∧ t.run = .running ∧
      t.mem = s.mem ∧ t.sp = s.sp ∧ t.fault = s.fault) ∧
    (7 < reg.toNat → exec (.prn reg) s = .next { s with
      run := .halted
      fault := some ⟨3, .outOfRangeAddress .reg, s.pc, .index reg⟩ })

/-- R145: MUL stores the product modulo 256 into its first register (the square where the two are one), advances the
pc by 3 and changes nothing else; it faults on operand-A above 7, otherwise on operand-B above 7. -/
def Obligations.MulMultipliesIntoItsFirstRegister : Prop :=
  ∀ (regA regB : Byte) (s : State),
    decode ⟨0b10100010#8, regA, regB⟩ = .ok (.mul regA regB) ∧
    (∀ (_ : regA.toNat ≤ 7) (_ : regB.toNat ≤ 7), ∃ t, exec (.mul regA regB) s = .next t ∧
      (t.x[regA.toNat]).toNat = (s.x[regA.toNat]).toNat * (s.x[regB.toNat]).toNat % 256 ∧
      (∀ j : Fin 8, j.val ≠ regA.toNat → t.x[j] = s.x[j]) ∧
      t.pc = s.pc + 3 ∧ t.run = .running ∧
      t.mem = s.mem ∧ t.sp = s.sp ∧ t.fault = s.fault ∧ t.out = s.out) ∧
    (7 < regA.toNat → exec (.mul regA regB) s = .next { s with
      run := .halted
      fault := some ⟨3, .outOfRangeAddress .reg, s.pc, .index regA⟩ }) ∧
    (regA.toNat ≤ 7 → 7 < regB.toNat → exec (.mul regA regB) s = .next { s with
      run := .halted
      fault := some ⟨3, .outOfRangeAddress .reg, s.pc, .index regB⟩ })

/-- R190: PUSH decrements the stack pointer and stores its register at the new top, advances the pc by 2 and changes
nothing else, every other cell included, whatever its ignored byte; it faults on an index above 7, otherwise on a
stack pointer of 0. -/
def Obligations.PushStoresBelowTheStackPointer : Prop :=
  ∀ (reg : Byte) (s : State),
    (∀ b : Byte, decode ⟨0b01000101#8, reg, b⟩ = .ok (.push reg)) ∧
    (∀ _ : reg.toNat ≤ 7, s.mem.wf → 0 < s.sp → s.sp ≤ 256 → ∃ t, exec (.push reg) s = .next t ∧
      (∀ a, pushAddress s = a → a + 1 = s.sp ∧ t.sp = a ∧ t.mem.read a = s.x[reg.toNat] ∧
        ∀ c, c ≠ a → t.mem.read c = s.mem.read c) ∧
      t.x = s.x ∧ t.pc = s.pc + 2 ∧ t.run = .running ∧ t.fault = s.fault ∧ t.out = s.out) ∧
    (7 < reg.toNat → exec (.push reg) s = .next { s with
      run := .halted
      fault := some ⟨3, .outOfRangeAddress .reg, s.pc, .index reg⟩ }) ∧
    (reg.toNat ≤ 7 → s.sp = 0 → exec (.push reg) s = .next { s with
      run := .halted
      fault := some ⟨4, .stackOverflow, s.pc, .stackPointer 0⟩ })

/-- R195: POP loads its register from the top of the stack, which it does not clear, increments the stack pointer,
advances the pc by 2 and changes nothing else, whatever its ignored byte; it faults on an index above 7, otherwise on
an empty stack. -/
def Obligations.PopLoadsTheTopOfTheStack : Prop :=
  ∀ (reg : Byte) (s : State),
    (∀ b : Byte, decode ⟨0b01000110#8, reg, b⟩ = .ok (.pop reg)) ∧
    (∀ _ : reg.toNat ≤ 7, s.sp < 256 → ∃ t, exec (.pop reg) s = .next t ∧
      t.x[reg.toNat] = s.mem.read s.sp ∧ (∀ j : Fin 8, j.val ≠ reg.toNat → t.x[j] = s.x[j]) ∧
      t.sp = s.sp + 1 ∧ t.mem = s.mem ∧
      t.pc = s.pc + 2 ∧ t.run = .running ∧ t.fault = s.fault ∧ t.out = s.out) ∧
    (7 < reg.toNat → exec (.pop reg) s = .next { s with
      run := .halted
      fault := some ⟨3, .outOfRangeAddress .reg, s.pc, .index reg⟩ }) ∧
    (reg.toNat ≤ 7 → s.sp = 256 → exec (.pop reg) s = .next { s with
      run := .halted
      fault := some ⟨5, .stackUnderflow, s.pc, .stackPointer 256⟩ })

/-- R140, with R141 to R143: the ALU writes the exact sum or product modulo 256 into its first register and changes
nothing else; a bad index raises, the first operand's first; any other operation name is unsupported. -/
def Obligations.AluAppliesAddAndMulModulo256 : Prop :=
  ∀ (dst src : Byte) (s : State),
    (∀ (_ : dst.toNat ≤ 7) (_ : src.toNat ≤ 7),
      (∃ t, aluApply .add dst src s = .ok t ∧
        (t.x[dst.toNat]).toNat = ((s.x[dst.toNat]).toNat + (s.x[src.toNat]).toNat) % 256 ∧
        (∀ j : Fin 8, j.val ≠ dst.toNat → t.x[j] = s.x[j]) ∧ t = { s with x := t.x }) ∧
      (∃ t, aluApply .mul dst src s = .ok t ∧
        (t.x[dst.toNat]).toNat = (s.x[dst.toNat]).toNat * (s.x[src.toNat]).toNat % 256 ∧
        (∀ j : Fin 8, j.val ≠ dst.toNat → t.x[j] = s.x[j]) ∧ t = { s with x := t.x }) ∧
      (∀ name, aluApply (.other name) dst src s = .error (.unsupportedAluOperation (.other name)))) ∧
    (∀ op, 7 < dst.toNat → aluApply op dst src s = .error (.outOfRangeReg dst)) ∧
    (∀ op, dst.toNat ≤ 7 → 7 < src.toNat → aluApply op dst src s = .error (.outOfRangeReg src))

/-! ### Rules over all instructions -/

/-- R21, R31, R34, R24 at the level of the step: memory changes only under PUSH, the stack pointer only under PUSH and
POP, the output only under PRN, and a register only under LDI, MUL or POP naming it. -/
def Obligations.EachPieceOfStateChangesOnlyUnderItsInstructions : Prop :=
  ∀ s t : State, step s = .next t →
    (t.mem ≠ s.mem → ∃ r, s.currentInstr = .ok (.push r)) ∧
    (t.sp ≠ s.sp → ∃ r, s.currentInstr = .ok (.push r) ∨ s.currentInstr = .ok (.pop r)) ∧
    (t.out ≠ s.out → ∃ r, s.currentInstr = .ok (.prn r)) ∧
    (∀ j : Fin 8, t.x[j] ≠ s.x[j] → ∃ r : Byte, r.toNat = j.val ∧
      ((∃ v, s.currentInstr = .ok (.ldi r v)) ∨ (∃ b, s.currentInstr = .ok (.mul r b)) ∨
        s.currentInstr = .ok (.pop r)))

/-- R24 as a rule of influence: an instruction run in two states that differ only in registers it does not read ends
in states that differ only in registers, and in none that it wrote, and it leaves the others as they were. -/
def Obligations.AnInstructionReadsOnlyItsTabledRegisters : Prop :=
  ∀ (i : Instr) (s₁ s₂ t₁ t₂ : State), s₂ = { s₁ with x := s₂.x } →
    (∀ j : Fin 8, (∃ r ∈ registersRead i, r.toNat = j.val) → s₂.x[j] = s₁.x[j]) →
    exec i s₁ = .next t₁ → exec i s₂ = .next t₂ →
    t₂ = { t₁ with x := t₂.x } ∧
    ∀ j : Fin 8, (t₂.x[j] = t₁.x[j] ∧ ∃ r ∈ registersWritten i, r.toNat = j.val) ∨
      (t₁.x[j] = s₁.x[j] ∧ t₂.x[j] = s₂.x[j])

/-- R28: a completed step advances the pc by exactly the delta of its opcode (R90: 0 for HLT, 3 for LDI and MUL, 2
for the others), a faulting step leaves it, and so it never decreases (R124). -/
def Obligations.ThePcAdvancesByTheOpcodesDelta : Prop :=
  ∀ s t : State, s.Inv → step s = .next t →
    s.pc ≤ t.pc ∧ (t.fault ≠ none → t.pc = s.pc) ∧
    (t.fault = none → ∃ i, s.currentInstr = .ok i ∧
      t.pc = s.pc + (match i with
        | .hlt => 0 | .ldi _ _ => 3 | .prn _ => 2 | .mul _ _ => 3 | .push _ => 2 | .pop _ => 2))

/-- R222: a step that raises a fault sets `run` and `fault` and changes nothing else; the record's pc is that of the
faulting instruction (R211), and its code is the one R210 numbers its kind with. -/
def Obligations.AFaultChangesOnlyRunAndRecord : Prop :=
  ∀ (s t : State) (r : FaultRecord), s.Inv → step s = .next t → t.fault = some r →
    t = { s with run := .halted, fault := some r } ∧ r.pc = s.pc ∧
    r.code = (match r.kind with
      | .unknownOpcode => 1 | .outOfRangeAddress .mem => 2 | .outOfRangeAddress .reg => 3
      | .stackOverflow => 4 | .stackUnderflow => 5 | .unsupportedAluOperation => 6)

/-- R220: which fault a faulting step reports. First the fetch, then the look-up, then operand-A, then operand-B of
MUL, then the stack bound. -/
def Obligations.FaultsAreReportedInTheOrderOfPriority : Prop :=
  ∀ (s t : State) (r : FaultRecord), s.Inv → step s = .next t → t.fault = some r →
    let op := s.mem.read s.pc
    let a := s.mem.read (s.pc + 1)
    let b := s.mem.read (s.pc + 2)
    r = if 254 ≤ s.pc then ⟨2, .outOfRangeAddress .mem, s.pc, .address 256⟩
      else if op ∉ [0x01#8, 0x82#8, 0x47#8, 0xA2#8, 0x45#8, 0x46#8] then ⟨1, .unknownOpcode, s.pc, .opcode op⟩
      else if 7 < a.toNat then ⟨3, .outOfRangeAddress .reg, s.pc, .index a⟩
      else if op = 0xA2#8 ∧ 7 < b.toNat then ⟨3, .outOfRangeAddress .reg, s.pc, .index b⟩
      else if op = 0x45#8 then ⟨4, .stackOverflow, s.pc, .stackPointer 0⟩
      else ⟨5, .stackUnderflow, s.pc, .stackPointer 256⟩

/-- R272: a step completes exactly where software has respected its rules: the window in memory (a), a known opcode,
every register operand 0 to 7 (b), room for a PUSH and a byte for a POP (c). -/
def Obligations.AStepCompletesExactlyWhereItsRulesAreMet : Prop :=
  ∀ s t : State, s.Inv → step s = .next t →
    (t.fault = none ↔ s.pc ≤ 253 ∧ ∃ i, s.currentInstr = .ok i ∧ i.wellFormed = true ∧
      (∀ r, i = .push r → 0 < s.sp) ∧ (∀ r, i = .pop r → s.sp < 256))

/-- R231 (and R126): a step that ends HALTED is HLT's, a normal halt, or a fault's, a fatal stop; one that ends RUNNING
leaves no record. -/
def Obligations.ARunEndsOnlyByHltOrByAFault : Prop :=
  ∀ s t : State, s.Inv → step s = .next t →
    (t.run = .halted → (t.normalHalt ∧ s.currentInstr = .ok .hlt) ∨ t.fatalStop) ∧
    (t.run = .running → t.fault = none)

/-- R33: a fault record is written by the step that halts, and once there it and the whole state stay for ever. -/
def Obligations.AFaultRecordIsWrittenOnceAndStays : Prop :=
  ∀ (s : State) (j k : Nat) (r : FaultRecord), s.Inv → (runFor j s).fault = some r →
    (runFor j s).run = .halted ∧ runFor (j + k) s = runFor j s

/-- The step lemma behind R125 (and R27, R113, R118): from a pc at most 256 every step leaves the pc at most 256 and
either halts or leaves the machine RUNNING with the pc at least 2 higher. -/
def Obligations.EveryStepHaltsOrMovesForwardInRange : Prop :=
  ∀ s t : State, s.pc ≤ 256 → step s = .next t →
    t.pc ≤ 256 ∧ (t.run = .halted ∨ (t.run = .running ∧ s.pc + 2 ≤ t.pc))

/-- R125: every run from every state with `pc ≤ 256` has reached HALTED within 128 steps, whatever its memory. -/
def Obligations.EveryRunHaltsWithin128Steps : Prop :=
  ∀ s : State, s.pc ≤ 256 → (runFor 128 s).run = .halted

/-- R264 with R125 and R265: every image of at most 256 bytes is accepted and its run ends, with its output, and with
status 0 exactly after a normal halt and 1 exactly after a fatal stop. -/
def Obligations.EveryImageRunsToAnObservedEnd : Prop :=
  ∀ image : List Byte, image.length ≤ 256 →
    ∃ s o, loadImage image = .ok s ∧ observe (runFor 128 s) = some o ∧
      o.final = runFor 128 s ∧ o.out = o.final.out ∧
      (o.exitStatus = 0 ↔ o.final.normalHalt) ∧ (o.exitStatus = 1 ↔ o.final.fatalStop)

/-- R181, R34: any number of steps keeps the values already emitted and adds at most one a step. -/
def Obligations.OutputOnlyGrowsByOneValueAStep : Prop :=
  ∀ (k : Nat) (s : State), ∃ vs : List Byte, (runFor k s).out = s.out ++ vs ∧ vs.length ≤ k

/-! ### The stack and self-modifying code -/

/-- R196: where PUSH does not fault, PUSH then POP moves the value, restores the stack pointer and keeps the value in
the cell, also where the two registers are one. -/
def Obligations.PushThenPopMovesTheValue : Prop :=
  ∀ (reg reg2 : Byte) (s : State) (_ : reg.toNat ≤ 7) (_ : reg2.toNat ≤ 7),
    s.mem.wf → 0 < s.sp → s.sp ≤ 256 →
    ∃ t u, exec (.push reg) s = .next t ∧ exec (.pop reg2) t = .next u ∧
      u.x[reg2.toNat] = s.x[reg.toNat] ∧ (∀ j : Fin 8, j.val ≠ reg2.toNat → u.x[j] = s.x[j]) ∧
      u.sp = s.sp ∧ u.mem.read (s.sp - 1) = s.x[reg.toNat] ∧ u.pc = s.pc + 4

/-- R197: the stack is last-in first-out at every depth. Pushing any registers, as many as there is room for, and then
popping and printing as many values emits them in reverse and restores the stack pointer. -/
def Obligations.TheStackIsLastInFirstOut : Prop :=
  ∀ (s : State) (regs : List Byte) (d : Byte), s.mem.wf → s.sp ≤ 256 → regs.length ≤ s.sp →
    (∀ r ∈ regs, r.toNat ≤ 7) → d.toNat ≤ 7 →
    ∃ t u, execSeq (regs.map .push) s = some t ∧ t.sp + regs.length = s.sp ∧
      execSeq (regs.flatMap fun _ => [.pop d, .prn d]) t = some u ∧ u.sp = s.sp ∧
      u.out = s.out ++ (regs.map fun r => (s.x[r.toNat]?).getD 0#8).reverse

/-- R64: the byte a PUSH writes is seen by every later fetch whose window covers it, any number of steps on, as long
as no other PUSH overwrites it; and the PUSH itself runs as its bytes stood at the start of its step, wherever it
writes. -/
def Obligations.EveryLaterFetchSeesAPushedByte : Prop :=
  ∀ (reg : Byte) (s : State) (_ : reg.toNat ≤ 7), s.mem.wf → s.run = .running → 0 < s.sp → s.sp ≤ 256 →
    s.pc ≤ 253 → s.currentInstr = .ok (.push reg) →
    ∃ t, step s = .next t ∧ exec (.push reg) s = .next t ∧ t.fault = s.fault ∧
      ∀ k a, pushAddress s = a →
        (∀ j < k, ∀ r, (runFor j t).currentInstr = .ok (.push r) → pushAddress (runFor j t) ≠ a) →
        (runFor k t).pc ≤ 253 →
        ∃ w, fetch (runFor k t) = .ok w ∧
          ((runFor k t).pc = a → w.opcode = s.x[reg.toNat]) ∧
          ((runFor k t).pc + 1 = a → w.operandA = s.x[reg.toNat]) ∧
          ((runFor k t).pc + 2 = a → w.operandB = s.x[reg.toNat])

/-! ### Encoding -/

/-- Decoding and encoding agree, both ways (R80, R85, R87): the bytes of any instruction, followed by any bytes that
fill the window, decode to it with every operand; and bytes that decode begin with the encoding of what they decode
to. -/
def Obligations.DecodingAndEncodingAgree : Prop :=
  (∀ (i : Instr) (rest : List Byte), 3 ≤ (encode i ++ rest).length → decodeBytes (encode i ++ rest) = .ok i) ∧
  (∀ (bytes : List Byte) (i : Instr), decodeBytes bytes = .ok i → ∃ rest, bytes = encode i ++ rest)

/-- Words written out from the encodings of R87 decode to their instructions (a sanity statement). -/
def Obligations.SampleWordsDecode : Prop :=
  decode ⟨0b00000001#8, 0b11111111#8, 0b00001000#8⟩ = .ok .hlt ∧
  decode ⟨0b10000010#8, 0b00000101#8, 0b11000011#8⟩ = .ok (.ldi 5 195) ∧
  decode ⟨0b01000111#8, 0b00000110#8, 0b10000010#8⟩ = .ok (.prn 6) ∧
  decode ⟨0b10100010#8, 0b00000001#8, 0b00000100#8⟩ = .ok (.mul 1 4) ∧
  decode ⟨0b01000101#8, 0b00000011#8, 0b11111111#8⟩ = .ok (.push 3) ∧
  decode ⟨0b01000110#8, 0b00000010#8, 0b00000000#8⟩ = .ok (.pop 2) ∧
  decode ⟨0b10100000#8, 0b00000000#8, 0b00000001#8⟩ = .error (.unknownOpcode 0xA0)

/-- R36 and R88: the dispatch table has 256 entries; six opcode bytes, all distinct, have one and the other 250 have
none. -/
def Obligations.TheDispatchTableHasExactlySixEntries : Prop :=
  dispatchTable.length = 256 ∧ (dispatchTable.filter Option.isSome).length = 6 ∧
  (∀ op : Opcode, dispatchTable[op.byte.toNat]? = some (some op)) ∧
  (∀ op op' : Opcode, op.byte = op'.byte → op = op') ∧
  (∀ b : Byte, b ∉ [0x01#8, 0x82#8, 0x47#8, 0xA2#8, 0x45#8, 0x46#8] → dispatchTable[b.toNat]? = some none)

/-- R97 and R85: whether a window decodes depends on its opcode byte alone, and an ignored byte does not change what
it decodes to. -/
def Obligations.OperandBytesAreNeverIllegal : Prop :=
  (∀ op a b a' b' : Byte, (∃ i, decode ⟨op, a, b⟩ = .ok i) → ∃ i, decode ⟨op, a', b'⟩ = .ok i) ∧
  (∀ op a b b' : Byte, op ∈ [0x01#8, 0x47#8, 0x45#8, 0x46#8] → decode ⟨op, a, b⟩ = decode ⟨op, a, b'⟩) ∧
  (∀ a a' b : Byte, decode ⟨0x01#8, a, b⟩ = decode ⟨0x01#8, a', b⟩)

/-! ### The host's interface -/

/-- The word the host places is the one that runs next (the model's interface, log entry 7): a step after
`withFetchWord` is `exec` of what the decoder reads from the word. -/
def Obligations.APlacedWordRunsNext : Prop :=
  ∀ (s : State) (nbits w : Nat) (i : Instr), s.run = .running → s.pc ≤ 253 → s.mem.wf →
    decodeTableWord nbits w = some i →
    step (s.withFetchWord nbits w) = exec i (s.withFetchWord nbits w)

/-- R262 on program texts (which characters are white and how many digits a literal may have are log entry 10, a
DESIGN CHOICE): lines of a literal of value 0 to 255 or none, each with any white space around it and with or without
a comment, load the same state as the image of their literals' bytes in order; a line without a literal advances no
address. Lines are separated by newlines, with or without one at the end of the text. -/
def Obligations.AProgramTextLoadsItsBytes : Prop :=
  ∀ lines : List (ProgramLine × List Bool), (∀ l ∈ lines, l.1.Carries l.2) →
    loadText (List.intercalate ['\n'] (lines.map fun l => l.1.text)) = loadImage (lines.filterMap fun l => literalByte l.2)

/-- R262 and R263, with the white space, the digit counts and the names of the refusals of log entry 10 (a DESIGN
CHOICE): the host refuses an image longer than memory; a line, with or without a comment, whose remainder holds
anything but the digits 0 and 1; and a literal of value 256 or more, of any length. A text that holds such a line
anywhere, whatever stands before and after it, is refused, and no run starts. -/
def Obligations.TheHostRefusesABadImageOrLine : Prop :=
  (∀ image : List Byte, 256 < image.length → loadImage image = .error .imageTooLong) ∧
  (∀ l : ProgramLine, l.Malformed → parseLine l.text = .error .malformedProgram) ∧
  (∀ l : ProgramLine, l.TooLarge → parseLine l.text = .error .literalTooLarge) ∧
  (∀ (l : ProgramLine) (before after : List Char), l.Malformed ∨ l.TooLarge →
    before = [] ∨ before.getLast? = some '\n' → after = [] ∨ after.head? = some '\n' →
    ∃ e, loadText (before ++ l.text ++ after) = .error e ∧ invoke (before ++ l.text ++ after) = .error e)

/-- R263 and R262 on the error itself (that the first refused line decides it is log entry 10, a DESIGN CHOICE): after
any lines that load, a malformed line fails the load of the text with `MalformedProgram` and a literal above 255 with
the refusal of its own, and no run starts, whatever follows. -/
def Obligations.TheFirstBadLineNamesTheRefusal : Prop :=
  ∀ (lines : List (ProgramLine × List Bool)) (bad : ProgramLine) (after : List Char),
    (∀ l ∈ lines, l.1.Carries l.2) → after = [] ∨ after.head? = some '\n' →
    let text := (lines.flatMap fun l => l.1.text ++ ['\n']) ++ bad.text ++ after
    (bad.Malformed → loadText text = .error .malformedProgram ∧ invoke text = .error .malformedProgram) ∧
    (bad.TooLarge → loadText text = .error .literalTooLarge ∧ invoke text = .error .literalTooLarge)

/-- R224 and R266: after a fatal stop the host reports status 1, and "instruction not found" with the opcode byte
exactly where the fault is an unknown opcode; any other fault it reports by its record. -/
def Obligations.TheHostReportsAFatalStopByItsRecord : Prop :=
  ∀ (s : State) (r : FaultRecord), s.Inv → s.fault = some r →
    exitStatus s = 1 ∧ (∀ op, faultReport r = .instructionNotFound op ↔ r.kind = .unknownOpcode ∧ r.info = .opcode op) ∧
    (r.kind ≠ .unknownOpcode → faultReport r = .faultOf r)
end

