-- ==== Sys2Proof/Laws/State.lean ====
section
/-! SUPPORT. Every field of State after every update: one lemma per field per update, so that no proof unfolds a
record update. -/

namespace Sys2Proof.Machine

variable (s : State)

/-! ### setMem -/

@[simp] theorem State.setMem_mem (m : Memory) : (s.setMem m).mem = m := rfl
@[simp] theorem State.setMem_x (m : Memory) : (s.setMem m).x = s.x := rfl
@[simp] theorem State.setMem_pc (m : Memory) : (s.setMem m).pc = s.pc := rfl
@[simp] theorem State.setMem_sp (m : Memory) : (s.setMem m).sp = s.sp := rfl
@[simp] theorem State.setMem_run (m : Memory) : (s.setMem m).run = s.run := rfl
@[simp] theorem State.setMem_fault (m : Memory) : (s.setMem m).fault = s.fault := rfl
@[simp] theorem State.setMem_out (m : Memory) : (s.setMem m).out = s.out := rfl

/-! ### setReg -/

@[simp] theorem State.setReg_mem (i : Fin 8) (v : Byte) : (s.setReg i v).mem = s.mem := rfl
@[simp] theorem State.setReg_x (i : Fin 8) (v : Byte) : (s.setReg i v).x = s.x.set i v := rfl
@[simp] theorem State.setReg_pc (i : Fin 8) (v : Byte) : (s.setReg i v).pc = s.pc := rfl
@[simp] theorem State.setReg_sp (i : Fin 8) (v : Byte) : (s.setReg i v).sp = s.sp := rfl
@[simp] theorem State.setReg_run (i : Fin 8) (v : Byte) : (s.setReg i v).run = s.run := rfl
@[simp] theorem State.setReg_fault (i : Fin 8) (v : Byte) : (s.setReg i v).fault = s.fault := rfl
@[simp] theorem State.setReg_out (i : Fin 8) (v : Byte) : (s.setReg i v).out = s.out := rfl

/-! ### setPc -/

@[simp] theorem State.setPc_mem (n : Nat) : (s.setPc n).mem = s.mem := rfl
@[simp] theorem State.setPc_x (n : Nat) : (s.setPc n).x = s.x := rfl
@[simp] theorem State.setPc_pc (n : Nat) : (s.setPc n).pc = n := rfl
@[simp] theorem State.setPc_sp (n : Nat) : (s.setPc n).sp = s.sp := rfl
@[simp] theorem State.setPc_run (n : Nat) : (s.setPc n).run = s.run := rfl
@[simp] theorem State.setPc_fault (n : Nat) : (s.setPc n).fault = s.fault := rfl
@[simp] theorem State.setPc_out (n : Nat) : (s.setPc n).out = s.out := rfl

/-! ### setSp -/

@[simp] theorem State.setSp_mem (n : Nat) : (s.setSp n).mem = s.mem := rfl
@[simp] theorem State.setSp_x (n : Nat) : (s.setSp n).x = s.x := rfl
@[simp] theorem State.setSp_pc (n : Nat) : (s.setSp n).pc = s.pc := rfl
@[simp] theorem State.setSp_sp (n : Nat) : (s.setSp n).sp = n := rfl
@[simp] theorem State.setSp_run (n : Nat) : (s.setSp n).run = s.run := rfl
@[simp] theorem State.setSp_fault (n : Nat) : (s.setSp n).fault = s.fault := rfl
@[simp] theorem State.setSp_out (n : Nat) : (s.setSp n).out = s.out := rfl

/-! ### setRun -/

@[simp] theorem State.setRun_mem (r : RunState) : (s.setRun r).mem = s.mem := rfl
@[simp] theorem State.setRun_x (r : RunState) : (s.setRun r).x = s.x := rfl
@[simp] theorem State.setRun_pc (r : RunState) : (s.setRun r).pc = s.pc := rfl
@[simp] theorem State.setRun_sp (r : RunState) : (s.setRun r).sp = s.sp := rfl
@[simp] theorem State.setRun_run (r : RunState) : (s.setRun r).run = r := rfl
@[simp] theorem State.setRun_fault (r : RunState) : (s.setRun r).fault = s.fault := rfl
@[simp] theorem State.setRun_out (r : RunState) : (s.setRun r).out = s.out := rfl

/-! ### setFault -/

@[simp] theorem State.setFault_mem (f : Option FaultRecord) : (s.setFault f).mem = s.mem := rfl
@[simp] theorem State.setFault_x (f : Option FaultRecord) : (s.setFault f).x = s.x := rfl
@[simp] theorem State.setFault_pc (f : Option FaultRecord) : (s.setFault f).pc = s.pc := rfl
@[simp] theorem State.setFault_sp (f : Option FaultRecord) : (s.setFault f).sp = s.sp := rfl
@[simp] theorem State.setFault_run (f : Option FaultRecord) : (s.setFault f).run = s.run := rfl
@[simp] theorem State.setFault_fault (f : Option FaultRecord) : (s.setFault f).fault = f := rfl
@[simp] theorem State.setFault_out (f : Option FaultRecord) : (s.setFault f).out = s.out := rfl

/-! ### emit -/

@[simp] theorem State.emit_mem (v : Byte) : (s.emit v).mem = s.mem := rfl
@[simp] theorem State.emit_x (v : Byte) : (s.emit v).x = s.x := rfl
@[simp] theorem State.emit_pc (v : Byte) : (s.emit v).pc = s.pc := rfl
@[simp] theorem State.emit_sp (v : Byte) : (s.emit v).sp = s.sp := rfl
@[simp] theorem State.emit_run (v : Byte) : (s.emit v).run = s.run := rfl
@[simp] theorem State.emit_fault (v : Byte) : (s.emit v).fault = s.fault := rfl
@[simp] theorem State.emit_out (v : Byte) : (s.emit v).out = s.out ++ [v] := rfl

/-! ### A written register -/

theorem State.setReg_get_same (i : Fin 8) (v : Byte) : (s.setReg i v).x[i] = v := by
  simp [State.setReg]

theorem State.setReg_get_ne (i j : Fin 8) (v : Byte) (h : j ≠ i) : (s.setReg i v).x[j] = s.x[j] := by
  have : i.val ≠ j.val := fun e => h (Fin.ext e.symm)
  simp [State.setReg, Vector.getElem_set_ne, this]

/-- Two states with equal fields are equal. -/
theorem State.eq_of_fields {s t : State} (hm : s.mem = t.mem) (hx : s.x = t.x) (hp : s.pc = t.pc) (hs : s.sp = t.sp)
    (hr : s.run = t.run) (hf : s.fault = t.fault) (ho : s.out = t.out) : s = t := by
  cases s
  cases t
  simp_all

end Sys2Proof.Machine
end

