-- ==== Sys2Proof/Laws/Memory.lean ====
section
/-! SUPPORT. The memory: a read after a write, the canonical form kept by every operation, and that canonical
memories with equal contents are equal data. -/

namespace Sys2Proof.Machine

/-- A memory whose addresses are all above `a` reads as unlisted at `a`. -/
theorem Memory.read_of_all_gt (m : Memory) (a : Nat) (h : ∀ c ∈ m, a < c.1) : m.read a = Memory.unlisted := by
  induction m with
  | nil => rfl
  | cons c m ih =>
    obtain ⟨k, v⟩ := c
    have hk : a < k := h (k, v) (by simp)
    have hm : ∀ c ∈ m, a < c.1 := fun c hc => h c (by simp [hc])
    simp [Memory.read, Nat.ne_of_gt hk, ih hm]

/-- A write leaves every other cell alone, whatever list it writes to. -/
theorem Memory.read_write_ne (m : Memory) (a b : Nat) (v : Byte) (h : b ≠ a) :
    (m.write a v).read b = m.read b := by
  induction m with
  | nil =>
    by_cases hv : v = Memory.unlisted
    · simp [Memory.write, hv]
    · simp [Memory.write, Memory.read, hv, h.symm]
  | cons c m ih =>
    obtain ⟨k, w⟩ := c
    unfold Memory.write
    split
    · split
      · rfl
      · simp [Memory.read, h.symm]
    · split
      · rename_i hk
        subst hk
        split
        · simp [Memory.read, h.symm]
        · simp [Memory.read, h.symm]
      · simp [Memory.read, ih]

/-- In canonical form, a read after a write to the same cell gives the value written (R53). -/
theorem Memory.read_write_same (m : Memory) (a : Nat) (v : Byte) (h : m.wf) : (m.write a v).read a = v := by
  obtain ⟨hp, hv⟩ := h
  induction m with
  | nil =>
    by_cases hv : v = Memory.unlisted
    · simp [Memory.write, Memory.read, hv]
    · simp [Memory.write, Memory.read, hv]
  | cons c m ih =>
    obtain ⟨k, w⟩ := c
    obtain ⟨hk, hp⟩ := List.pairwise_cons.mp hp
    have hlow : ∀ b, b ≤ k → ∀ c ∈ m, b < c.1 := fun b hb c hc => Nat.lt_of_le_of_lt hb (hk c hc)
    unfold Memory.write
    split
    · rename_i hlt
      split
      · rename_i hu
        simp [Memory.read, Nat.ne_of_gt hlt, Memory.read_of_all_gt m a (hlow a (Nat.le_of_lt hlt)), hu]
      · simp [Memory.read]
    · split
      · rename_i hk
        subst hk
        split
        · rename_i hu
          rw [Memory.read_of_all_gt m a (hlow a (Nat.le_refl a)), hu]
        · simp [Memory.read]
      · rename_i hne
        have : ¬ k = a := fun e => hne e.symm
        simp [Memory.read, this, ih hp (fun c hc => hv c (by simp [hc]))]

/-- The entries after a write are the one written and old ones. -/
theorem Memory.mem_write (m : Memory) (a : Nat) (v : Byte) (c : Host.Cell) (h : c ∈ m.write a v) :
    (c = (a, v) ∧ v ≠ Memory.unlisted) ∨ c ∈ m := by
  induction m with
  | nil =>
    by_cases hv : v = Memory.unlisted
    · simp [Memory.write, hv] at h
    · simp [Memory.write, hv] at h
      exact .inl ⟨h, hv⟩
  | cons d m ih =>
    obtain ⟨k, w⟩ := d
    unfold Memory.write at h
    split at h
    · split at h
      · exact .inr h
      · rename_i hv
        rcases List.mem_cons.mp h with h | h
        · exact .inl ⟨h, hv⟩
        · exact .inr h
    · split at h
      · split at h
        · exact .inr (List.mem_cons_of_mem _ h)
        · rename_i hv
          rcases List.mem_cons.mp h with h | h
          · exact .inl ⟨h, hv⟩
          · exact .inr (List.mem_cons_of_mem _ h)
      · rcases List.mem_cons.mp h with h | h
        · exact .inr (by simp [h])
        · rcases ih h with h | h
          · exact .inl h
          · exact .inr (List.mem_cons_of_mem _ h)

/-- A write inside the address space keeps the canonical form. -/
theorem Memory.write_wf (m : Memory) (a : Nat) (v : Byte) (h : m.wf) (ha : a < Config.memSize) :
    (m.write a v).wf := by
  refine ⟨?_, ?_⟩
  · obtain ⟨hp, -⟩ := h
    induction m with
    | nil =>
      by_cases hv : v = Memory.unlisted <;> simp [Memory.write, hv]
    | cons c m ih =>
      obtain ⟨k, w⟩ := c
      obtain ⟨hk, hp'⟩ := List.pairwise_cons.mp hp
      unfold Memory.write
      split
      · rename_i hlt
        split
        · exact hp
        · refine List.pairwise_cons.mpr ⟨fun d hd => ?_, hp⟩
          rcases List.mem_cons.mp hd with hd | hd
          · simpa [hd] using hlt
          · exact Nat.lt_trans hlt (hk d hd)
      · split
        · rename_i hak
          subst hak
          split
          · exact hp'
          · exact List.pairwise_cons.mpr ⟨hk, hp'⟩
        · rename_i hlt hne
          refine List.pairwise_cons.mpr ⟨fun d hd => ?_, ih hp'⟩
          rcases Memory.mem_write m a v d hd with ⟨hd, -⟩ | hd
          · simp only [hd]
            omega
          · exact hk d hd
  · intro c hc
    rcases Memory.mem_write m a v c hc with ⟨rfl, hv⟩ | hc
    · exact ⟨hv, ha⟩
    · exact h.2 c hc

/-- Writing bytes keeps the canonical form. -/
theorem Memory.writeBytes_wf (m : Memory) (a : Nat) (vs : List Byte) (h : m.wf) : (m.writeBytes a vs).wf := by
  induction vs generalizing m a with
  | nil => exact h
  | cons v vs ih =>
    unfold Memory.writeBytes
    apply ih
    split
    · rename_i ha
      exact m.write_wf a v h ha
    · exact h

/-- Writing bytes from `a` leaves every lower cell alone. -/
theorem Memory.read_writeBytes_lt (m : Memory) (a b : Nat) (vs : List Byte) (h : b < a) :
    (m.writeBytes a vs).read b = m.read b := by
  induction vs generalizing m a with
  | nil => rfl
  | cons v vs ih =>
    unfold Memory.writeBytes
    rw [ih _ (a + 1) (by omega)]
    split
    · exact m.read_write_ne a b v (by omega)
    · rfl

/-- The empty memory, that of reset, is in canonical form. -/
theorem Memory.nil_wf : Memory.wf [] := by simp [Memory.wf]

/-- Canonical memories that read alike everywhere are the same list. -/
theorem Memory.eq_of_read_eq (m n : Memory) (hm : m.wf) (hn : n.wf) (h : ∀ a, m.read a = n.read a) : m = n := by
  induction m generalizing n with
  | nil =>
    cases n with
    | nil => rfl
    | cons d n =>
      have := h d.1
      have hd := (hn.2 d (by simp)).1
      simp [Memory.read] at this
      exact absurd this.symm hd
  | cons c m ih =>
    cases n with
    | nil =>
      have := h c.1
      have hc := (hm.2 c (by simp)).1
      simp [Memory.read] at this
      exact absurd this hc
    | cons d n =>
      obtain ⟨k, v⟩ := c
      obtain ⟨l, w⟩ := d
      obtain ⟨hk, hmp⟩ := List.pairwise_cons.mp hm.1
      obtain ⟨hl, hnp⟩ := List.pairwise_cons.mp hn.1
      have hmw : Memory.wf m := ⟨hmp, fun c hc => hm.2 c (by simp [hc])⟩
      have hnw : Memory.wf n := ⟨hnp, fun c hc => hn.2 c (by simp [hc])⟩
      have hv : v ≠ Memory.unlisted := (hm.2 (k, v) (by simp)).1
      have hw : w ≠ Memory.unlisted := (hn.2 (l, w) (by simp)).1
      have hkl : k = l := by
        rcases Nat.lt_trichotomy k l with hlt | heq | hgt
        · have := h k
          have hz := Memory.read_of_all_gt n k (fun c hc => Nat.lt_trans hlt (hl c hc))
          simp [Memory.read, Nat.ne_of_gt hlt, hz] at this
          exact absurd this hv
        · exact heq
        · have := h l
          have hz := Memory.read_of_all_gt m l (fun c hc => Nat.lt_trans hgt (hk c hc))
          simp [Memory.read, Nat.ne_of_gt hgt, hz] at this
          exact absurd this.symm hw
      subst hkl
      have hvw : v = w := by simpa [Memory.read] using h k
      subst hvw
      rw [ih n hmw hnw]
      intro a
      by_cases hka : k = a
      · subst hka
        rw [Memory.read_of_all_gt m k hk, Memory.read_of_all_gt n k hl]
      · have := h a
        simpa [Memory.read, hka] using this

end Sys2Proof.Machine
end

