-- ==== Sys2Proof/Laws/Ops.lean ====
section
/-! SUPPORT. One lemma per shared operation, saying everything it can do. -/

namespace Sys2Proof.Machine

/-! ### Checked accessors -/

theorem memRead_of_lt (a : Nat) (s : State) (h : a < 256) : memRead a s = .ok (s.mem.read a) := by
  simp [memRead, h]

theorem memRead_of_ge (a : Nat) (s : State) (h : 256 ≤ a) : memRead a s = .error (.outOfRangeMem a) := by
  simp [memRead, h]

theorem memWrite_of_lt (a : Nat) (v : Byte) (s : State) (h : a < 256) :
    memWrite a v s = .ok (s.setMem (s.mem.write a v)) := by
  simp [memWrite, h]

theorem memWrite_of_ge (a : Nat) (v : Byte) (s : State) (h : 256 ≤ a) :
    memWrite a v s = .error (.outOfRangeMem a) := by
  simp [memWrite, h]

theorem regRead_of_lt (i : Byte) (s : State) (h : i.toNat < 8) : regRead i s = .ok s.x[i.toNat] := by
  simp [regRead, h]

theorem regRead_of_gt (i : Byte) (s : State) (h : 7 < i.toNat) : regRead i s = .error (.outOfRangeReg i) := by
  have : ¬ i.toNat < 8 := by omega
  simp [regRead, this]

theorem regWrite_of_lt (i v : Byte) (s : State) (h : i.toNat < 8) :
    regWrite i v s = .ok (s.setReg ⟨i.toNat, h⟩ v) := by
  simp [regWrite, h]

theorem regWrite_of_gt (i v : Byte) (s : State) (h : 7 < i.toNat) :
    regWrite i v s = .error (.outOfRangeReg i) := by
  have : ¬ i.toNat < 8 := by omega
  simp [regWrite, this]

/-! ### Fetch -/

/-- A window inside memory is fetched as it stands (R112). -/
theorem fetch_of_le (s : State) (h : s.pc ≤ 253) :
    fetch s = .ok ⟨s.mem.read s.pc, s.mem.read (s.pc + 1), s.mem.read (s.pc + 2)⟩ := by
  simp [fetch, memRead_of_lt _ s (show s.pc < 256 by omega), memRead_of_lt _ s (show s.pc + 1 < 256 by omega),
    memRead_of_lt _ s (show s.pc + 2 < 256 by omega)]

/-- A window that leaves memory faults at address 256 (R113). -/
theorem fetch_of_ge (s : State) (h : 254 ≤ s.pc) (hp : s.pc ≤ 256) : fetch s = .error (.outOfRangeMem 256) := by
  unfold fetch
  obtain h | h | h : s.pc = 254 ∨ s.pc = 255 ∨ s.pc = 256 := by omega
  · rw [h, memRead_of_lt 254 s (by omega), memRead_of_lt 255 s (by omega), memRead_of_ge 256 s (by omega)]
  · rw [h, memRead_of_lt 255 s (by omega), memRead_of_ge 256 s (by omega)]
  · rw [h, memRead_of_ge 256 s (by omega)]

/-- Above the last window every fetch faults, also in states no run reaches. -/
theorem fetch_fails_of_ge (s : State) (h : 254 ≤ s.pc) : ∃ a, fetch s = .error (.outOfRangeMem a) := by
  by_cases hp : s.pc ≤ 256
  · exact ⟨256, fetch_of_ge s h hp⟩
  · refine ⟨s.pc, ?_⟩
    unfold fetch
    rw [memRead_of_ge s.pc s (by omega)]

/-! ### Taking a fault and ending a step -/

@[simp] theorem takeFault_mem (f : FaultCause) (s : State) : (takeFault f s).mem = s.mem := rfl
@[simp] theorem takeFault_x (f : FaultCause) (s : State) : (takeFault f s).x = s.x := rfl
@[simp] theorem takeFault_pc (f : FaultCause) (s : State) : (takeFault f s).pc = s.pc := rfl
@[simp] theorem takeFault_sp (f : FaultCause) (s : State) : (takeFault f s).sp = s.sp := rfl
@[simp] theorem takeFault_run (f : FaultCause) (s : State) : (takeFault f s).run = .halted := rfl
@[simp] theorem takeFault_fault (f : FaultCause) (s : State) : (takeFault f s).fault = some (f.record s.pc) := rfl
@[simp] theorem takeFault_out (f : FaultCause) (s : State) : (takeFault f s).out = s.out := rfl

@[simp] theorem finish_error (s : State) (f : FaultCause) : finish s (.error f) = takeFault f s := rfl

theorem finish_ok (s : State) (h : Handled) :
    finish s (.ok h) = (h.state.setRun (runOf h.cont)).setPc (h.state.pc + h.delta) := rfl

@[simp] theorem runOf_true : runOf true = .running := rfl
@[simp] theorem runOf_false : runOf false = .halted := rfl

end Sys2Proof.Machine
end

