-- ==== Sys2Proof/Laws/Exec.lean ====
section
/-! SUPPORT. One lemma per handler, saying everything it can do; and the shape of `exec`. -/

namespace Sys2Proof.Machine

theorem handleHlt_spec (s : State) : handleHlt s = .ok (report .hlt s) := rfl

theorem handleLdi_spec (reg imm : Byte) (s : State) :
    handleLdi reg imm s =
      if h : reg.toNat < 8 then .ok (report .ldi (s.setReg ⟨reg.toNat, h⟩ imm)) else .error (.outOfRangeReg reg) := by
  unfold handleLdi regWrite
  by_cases h : reg.toNat < 8 <;> simp [h]

theorem handlePrn_spec (reg : Byte) (s : State) :
    handlePrn reg s =
      if h : reg.toNat < 8 then .ok (report .prn (s.emit s.x[reg.toNat])) else .error (.outOfRangeReg reg) := by
  unfold handlePrn regRead
  by_cases h : reg.toNat < 8 <;> simp [h]

/-- What the ALU does on any operation and any indices (R140). -/
theorem aluApply_spec (op : AluOperation) (dst src : Byte) (s : State) :
    aluApply op dst src s =
      if hd : dst.toNat < 8 then
        if hs : src.toNat < 8 then
          match aluResult op s.x[dst.toNat] s.x[src.toNat] with
          | .ok r => .ok (s.setReg ⟨dst.toNat, hd⟩ r)
          | .error f => .error f
        else .error (.outOfRangeReg src)
      else .error (.outOfRangeReg dst) := by
  unfold aluApply regRead regWrite
  by_cases hd : dst.toNat < 8 <;> by_cases hs : src.toNat < 8 <;> simp [hd, hs]
  cases aluResult op s.x[dst.toNat] s.x[src.toNat] <;> rfl

theorem handleMul_spec (regA regB : Byte) (s : State) :
    handleMul regA regB s =
      if ha : regA.toNat < 8 then
        if hb : regB.toNat < 8 then
          .ok (report .mul (s.setReg ⟨regA.toNat, ha⟩ (aluMul s.x[regA.toNat] s.x[regB.toNat])))
        else .error (.outOfRangeReg regB)
      else .error (.outOfRangeReg regA) := by
  unfold handleMul
  rw [aluApply_spec]
  by_cases ha : regA.toNat < 8 <;> by_cases hb : regB.toNat < 8 <;> simp [ha, hb, aluResult]

theorem handlePush_spec (reg : Byte) (s : State) :
    handlePush reg s =
      if h : reg.toNat < 8 then
        if s.sp = 0 then .error (.stackOverflow s.sp)
        else if s.sp ≤ 256 then
          .ok (report .push ((s.setSp (s.sp - 1)).setMem (s.mem.write (s.sp - 1) s.x[reg.toNat])))
        else .error (.outOfRangeMem (s.sp - 1))
      else .error (.outOfRangeReg reg) := by
  unfold handlePush regRead memWrite pushAddress
  by_cases h : reg.toNat < 8
  · by_cases h0 : s.sp = 0
    · simp [h, h0]
    · by_cases h1 : s.sp ≤ 256
      · simp [h, h0, h1, show s.sp - 1 < 256 by omega]
      · simp [h, h0, h1, show ¬ s.sp - 1 < 256 by omega]
  · simp [h]

theorem handlePop_spec (reg : Byte) (s : State) :
    handlePop reg s =
      if h : reg.toNat < 8 then
        if s.sp = 256 then .error (.stackUnderflow s.sp)
        else if s.sp < 256 then
          .ok (report .pop ((s.setReg ⟨reg.toNat, h⟩ (s.mem.read s.sp)).setSp (s.sp + 1)))
        else .error (.outOfRangeMem s.sp)
      else .error (.outOfRangeReg reg) := by
  unfold handlePop regWrite memRead
  by_cases h : reg.toNat < 8
  · have : ¬ 7 < reg.toNat := by omega
    by_cases h0 : s.sp = 256 <;> by_cases h1 : s.sp < 256 <;> simp [h, this, h0, h1]
  · have : 7 < reg.toNat := by omega
    simp [h, this]

/-- Every instruction answers a next state: a CORE fault is one too (R222). -/
theorem exec_answers_next (i : Instr) (s : State) : ∃ r, exec i s = .next (finish s r) := by
  cases i <;> exact ⟨_, rfl⟩

end Sys2Proof.Machine
end

