-- ==== Sys2Proof/Laws/HostInterface.lean ====
section
/-! SUPPORT. The loader's functions, each said once: splitting a text, stripping a comment, trimming, and the value of
a literal. -/

namespace Sys2Proof.Machine

/-! ### Lists of characters -/

theorem dropWhile_of_all {p : Char → Bool} (l r : List Char) (h : ∀ c ∈ l, p c = true) :
    (l ++ r).dropWhile p = r.dropWhile p := by
  induction l with
  | nil => rfl
  | cons c l ih =>
    simp [h c (by simp), ih fun d hd => h d (by simp [hd])]

theorem dropWhile_of_head {p : Char → Bool} (l : List Char) (h : ∀ c, l.head? = some c → p c = false) :
    l.dropWhile p = l := by
  cases l with
  | nil => rfl
  | cons c l => simp [h c rfl]

/-! ### Splitting a text into lines -/

/-- A newline ends a line. -/
theorem splitLines_newline (l rest : List Char) (h : '\n' ∉ l) :
    splitLines (l ++ '\n' :: rest) = l :: splitLines rest := by
  induction l with
  | nil => simp [splitLines]
  | cons c l ih =>
    have hc : c ≠ '\n' := fun e => h (by simp [e])
    have hl : '\n' ∉ l := fun hm => h (by simp [hm])
    simp [splitLines, hc, ih hl]

/-- A text without a newline is one line. -/
theorem splitLines_last (l : List Char) (h : '\n' ∉ l) : splitLines l = [l] := by
  induction l with
  | nil => rfl
  | cons c l ih =>
    have hc : c ≠ '\n' := fun e => h (by simp [e])
    have hl : '\n' ∉ l := fun hm => h (by simp [hm])
    simp [splitLines, hc, ih hl]

/-- Two texts with a newline between them split into the lines of the one and of the other. -/
theorem splitLines_append (a b : List Char) : splitLines (a ++ '\n' :: b) = splitLines a ++ splitLines b := by
  induction a with
  | nil => simp [splitLines]
  | cons c a ih =>
    by_cases hc : c = '\n'
    · simp [splitLines, hc, ih]
    · cases ha : splitLines a <;> simp_all [splitLines]
      cases a <;> simp [splitLines] at ha
      split at ha
      · cases ha
      · split at ha <;> cases ha

/-! ### The parts of a line -/

/-- Stripping the comment leaves what stands before the first `#` (R262). -/
theorem stripComment_of_plain (l : List Char) (h : '#' ∉ l) :
    stripComment l = l ∧ ∀ c, stripComment (l ++ '#' :: c) = l := by
  unfold stripComment
  induction l with
  | nil => simp
  | cons a l ih =>
    have hl : '#' ∉ l := fun hm => h (by simp [hm])
    have ha : a ≠ '#' := fun e => h (by simp [e])
    refine ⟨?_, fun c => ?_⟩
    · rw [List.takeWhile_cons, if_pos (by simpa using ha), (ih hl).1]
    · rw [List.cons_append, List.takeWhile_cons, if_pos (by simpa using ha), (ih hl).2 c]

/-- Trimming takes exactly the white space around the remainder (R262). -/
theorem trim_of_parts (lead content trail : List Char) (hl : ∀ c ∈ lead, c.isWhitespace = true)
    (ht : ∀ c ∈ trail, c.isWhitespace = true) (hh : ∀ c, content.head? = some c → c.isWhitespace = false)
    (he : ∀ c, content.getLast? = some c → c.isWhitespace = false) : trim (lead ++ content ++ trail) = content := by
  unfold trim
  rw [List.append_assoc, dropWhile_of_all lead _ hl]
  have hrev : (trail.reverse ++ content.reverse).dropWhile Char.isWhitespace = content.reverse := by
    rw [dropWhile_of_all _ _ fun c hc => ht c (by simpa using hc), dropWhile_of_head]
    simpa using he
  cases content with
  | nil =>
    rw [List.nil_append, ← List.append_nil trail, dropWhile_of_all trail [] ht]
    rfl
  | cons c cs =>
    rw [dropWhile_of_head (c :: cs ++ trail) (by simpa using hh), List.reverse_append, hrev, List.reverse_reverse]

/-- What a formed line comes to after its comment and white space are gone is its remainder. -/
theorem ProgramLine.trim_strip_text (l : ProgramLine) (h : l.Formed) : trim (stripComment l.text) = l.content := by
  have white_ne : ∀ c : Char, c.isWhitespace = true → c ≠ '#' := by
    rintro c hc rfl
    exact absurd hc (by decide)
  have plain : '#' ∉ l.lead ++ l.content ++ l.trail := by
    simp only [List.mem_append, not_or]
    exact ⟨⟨fun hm => white_ne _ (h.leadWhite _ hm).1 rfl, fun hm => (h.contentPlain _ hm).1 rfl⟩,
      fun hm => white_ne _ (h.trailWhite _ hm).1 rfl⟩
  have strip : stripComment l.text = l.lead ++ l.content ++ l.trail := by
    unfold ProgramLine.text
    cases l.comment with
    | none => simpa using (stripComment_of_plain _ plain).1
    | some c => exact (stripComment_of_plain _ plain).2 c
  rw [strip, trim_of_parts _ _ _ (fun c hc => (h.leadWhite c hc).1) (fun c hc => (h.trailWhite c hc).1)
    h.contentHead h.contentLast]

/-- A formed line holds no newline. -/
theorem ProgramLine.newline_not_mem_text (l : ProgramLine) (h : l.Formed) : '\n' ∉ l.text := by
  unfold ProgramLine.text
  simp only [List.mem_append, not_or]
  refine ⟨⟨⟨fun hm => (h.leadWhite _ hm).2 rfl, fun hm => (h.contentPlain _ hm).2 rfl⟩,
    fun hm => (h.trailWhite _ hm).2 rfl⟩, ?_⟩
  cases hc : l.comment with
  | none => simp
  | some c => simp [h.commentOneLine c hc]

theorem exists_lead (l : List Char) : ∃ w r, l = w ++ r ∧ (∀ c ∈ w, c.isWhitespace = true) ∧
    ∀ c, r.head? = some c → c.isWhitespace = false := by
  induction l with
  | nil => exact ⟨[], [], rfl, by simp, by simp⟩
  | cons a l ih =>
    by_cases ha : a.isWhitespace = true
    · obtain ⟨w, r, rfl, hw, hr⟩ := ih
      exact ⟨a :: w, r, rfl, by simpa [ha] using hw, hr⟩
    · exact ⟨[], a :: l, rfl, by simp, by simpa using ha⟩

theorem exists_comment (l : List Char) : ∃ p c, '#' ∉ p ∧ l = p ++ (match c with
    | none => []
    | some (c : List Char) => '#' :: c) := by
  induction l with
  | nil => exact ⟨[], none, by simp, rfl⟩
  | cons a l ih =>
    by_cases ha : a = '#'
    · exact ⟨[], some l, by simp, by simp [ha]⟩
    · obtain ⟨p, c, hp, rfl⟩ := ih
      exact ⟨a :: p, c, by simp [hp, Ne.symm ha], rfl⟩

/-- Every line without a newline is the text of a formed line: claims over formed lines leave no line out. -/
theorem ProgramLine.exists_formed (l : List Char) (h : '\n' ∉ l) : ∃ p : ProgramLine, p.Formed ∧ p.text = l := by
  obtain ⟨p, c, hp, rfl⟩ := exists_comment l
  obtain ⟨w, r, rfl, hw, hr⟩ := exists_lead p
  obtain ⟨v, q, hq, hv, hl⟩ := exists_lead r.reverse
  have hrq : r = q.reverse ++ v.reverse := by
    rw [← List.reverse_append, ← hq, List.reverse_reverse]
  subst hrq
  simp only [List.mem_append, List.mem_reverse, not_or] at h hp
  refine ⟨⟨w, q.reverse, v.reverse, c⟩, ⟨fun d hd => ⟨hw d hd, ?_⟩, fun d hd => ⟨hv d (by simpa using hd), ?_⟩,
    fun d hd => ⟨?_, ?_⟩, fun d hd => ?_, fun d hd => ?_, fun d hd => ?_⟩, ?_⟩
  · rintro rfl
    exact h.1.1 hd
  · rintro rfl
    exact h.1.2.2 (by simpa using hd)
  · rintro rfl
    exact hp.2.1 (by simpa using hd)
  · rintro rfl
    exact h.1.2.1 (by simpa using hd)
  · refine hr d ?_
    dsimp only at hd
    rw [List.head?_append, hd]
    rfl
  · exact hl d (by simpa using hd)
  · dsimp only at hd
    subst hd
    intro hm
    exact h.2 (by simp [hm])
  · simp only [ProgramLine.text, List.append_assoc]
    cases c <;> rfl

/-! ### Literals -/

/-- The loader reads a string of binary digits at its positional value (R262). -/
theorem parseBinary_digitsText (ds : List Bool) (h : ds ≠ []) : parseBinary (digitsText ds) = some (digitsValue ds) := by
  have digits : (digitsText ds).all (fun c => c = '0' || c = '1') = true := by
    rw [List.all_eq_true]
    intro c hc
    obtain ⟨d, -, rfl⟩ := List.mem_map.mp hc
    cases d <;> rfl
  have value : (digitsText ds).foldl (fun n c => 2 * n + (if c = '1' then 1 else 0)) 0 = digitsValue ds := by
    clear digits h
    unfold digitsText digitsValue
    induction ds using List.reverseRecOn with
    | nil => rfl
    | append_singleton ds d ih =>
      rw [List.map_append, List.foldl_append, ih, List.reverse_append, List.map_append]
      cases d <;> simp [Nat.ofDigits_cons, Nat.add_comm]
  unfold parseBinary
  split
  · rename_i he
    exact absurd (List.map_eq_nil_iff.mp he) h
  · rw [if_pos digits, value]

/-- A string with any other character is no literal. -/
theorem parseBinary_of_other (l : List Char) (h : ∃ c ∈ l, c ≠ '0' ∧ c ≠ '1') : parseBinary l = none := by
  obtain ⟨c, hc, h0, h1⟩ := h
  unfold parseBinary
  split
  · rfl
  · rw [if_neg]
    intro hall
    have := List.all_eq_true.mp hall c hc
    simp [h0, h1] at this

/-- What a formed line gives, by its remainder (R262, R263). -/
theorem parseLine_text (l : ProgramLine) (h : l.Formed) :
    parseLine l.text =
      if l.content = [] then .ok none
      else
        match parseBinary l.content with
        | none => .error .malformedProgram
        | some n => if n < 256 then .ok (some (BitVec.ofNat 8 n)) else .error .literalTooLarge := by
  unfold parseLine
  rw [l.trim_strip_text h]
  cases l.content <;> rfl

end Sys2Proof.Machine
end

