-- ==== Sys2Proof/Laws/PerInstr.lean ====
section
/-! SUPPORT. Statements about every instruction as syntax, one lemma per constructor. -/

namespace Sys2Proof.Laws.EncodedHead

/-- The encoding begins with the opcode's byte and has the length of the opcode's format (R80, R81, R87). -/
def Statement (i : Instr) : Prop :=
  (encode i).head? = some i.opcode.byte ∧ (encode i).length = i.opcode.format.length

theorem hlt : Statement .hlt := ⟨rfl, rfl⟩
theorem ldi (reg imm : Byte) : Statement (.ldi reg imm) := ⟨rfl, rfl⟩
theorem prn (reg : Byte) : Statement (.prn reg) := ⟨rfl, rfl⟩
theorem mul (regA regB : Byte) : Statement (.mul regA regB) := ⟨rfl, rfl⟩
theorem push (reg : Byte) : Statement (.push reg) := ⟨rfl, rfl⟩
theorem pop (reg : Byte) : Statement (.pop reg) := ⟨rfl, rfl⟩

end Sys2Proof.Laws.EncodedHead
end

