-- ==== Sys2Proof/Laws/Step.lean ====
section
/-! SUPPORT. What one step can do, said once. -/

namespace Sys2Proof.Machine

/-- The states a step can start from and what each gives. -/
theorem step_cases (s t : State) (h : step s = .next t) :
    s.run = .running ∧
      ((∃ f, fetch s = .error f ∧ t = takeFault f s) ∨
       (∃ w e, fetch s = .ok w ∧ decode w = .error e ∧ t = takeFault (.unknownOpcode w.opcode) s) ∨
       (∃ w i, fetch s = .ok w ∧ decode w = .ok i ∧ exec i s = .next t)) := by
  unfold step at h
  split at h
  · cases h
  · rename_i hr
    refine ⟨hr, ?_⟩
    split at h
    · rename_i f hf
      cases h
      exact .inl ⟨f, hf, rfl⟩
    · rename_i w hw
      split at h
      · rename_i e he
        cases h
        exact .inr (.inl ⟨w, e, hw, he, rfl⟩)
      · rename_i i hi
        exact .inr (.inr ⟨w, i, hw, hi, h⟩)

/-- A RUNNING state without a record meets the invariant once its memory, `pc` and `sp` do. -/
theorem inv_of_running (s : State) (h : s.mem.wf ∧ s.pc ≤ 256 ∧ s.sp ≤ 256 ∧ s.run = .running ∧ s.fault = none) :
    s.Inv := by
  obtain ⟨hm, hp, hs, -, hf⟩ := h
  exact ⟨hm, hp, hs, fun _ => hf, fun r hr => by rw [hf] at hr; cases hr⟩

/-- A halted state has no next state (R111). -/
theorem step_halted (s : State) (h : s.run = .halted) : step s = .fault (haltedReason s) := by
  simp [step, h]

/-- A halted state is final (R230). -/
theorem runFor_halted (k : Nat) (s : State) (h : s.run = .halted) : runFor k s = s := by
  cases k with
  | zero => rfl
  | succ k => simp [runFor, step_halted s h]

theorem runFor_next (k : Nat) (s t : State) (h : step s = .next t) : runFor (k + 1) s = runFor k t := by
  simp [runFor, h]

end Sys2Proof.Machine
end

