-- ==== Sys2Proof/Tests/Slice0.lean ====
section
/-! SUPPORT. The model's own tests. Every expected result is a vector of spec/95_test_vectors.md (its id is named) or
is written out from a rule's encoding; then, for every obligation with hypotheses, states and operands that meet
them. -/

namespace Sys2Proof.Tests

open Sys2Proof.Machine

/-! ### Helpers -/

/-- The reset state with bytes placed at an address and the pc and sp set. -/
def start (pc sp a : Nat) (bytes : List Byte) : State :=
  ((State.reset.setMem (State.reset.mem.writeBytes a bytes)).setPc pc).setSp sp

/-- The next state, if there is one. -/
def after : Host.Outcome State Fault Refusal → Option State
  | .next t => some t
  | .fault _ => none
  | .refused _ => none

/-- The fault record of the next state, if there is one. -/
def faultAfter (o : Host.Outcome State Fault Refusal) : Option FaultRecord := (after o).bind (·.fault)

/-! ### Well-formedness: one ill-formed term for each check -/

theorem test_wellFormed_refuses_ldi_register : (Instr.ldi 8 0).wellFormed = false := by decide
theorem test_wellFormed_refuses_prn_register : (Instr.prn 255).wellFormed = false := by decide
theorem test_wellFormed_refuses_mul_regA : (Instr.mul 8 0).wellFormed = false := by decide
theorem test_wellFormed_refuses_mul_regB : (Instr.mul 0 8).wellFormed = false := by decide
theorem test_wellFormed_refuses_push_register : (Instr.push 9).wellFormed = false := by decide
theorem test_wellFormed_refuses_pop_register : (Instr.pop 128).wellFormed = false := by decide
theorem test_wellFormed_accepts_last_register :
    (Instr.mul 7 7).wellFormed = true ∧ (Instr.ldi 7 255).wellFormed = true ∧ Instr.hlt.wellFormed = true := by decide

/-! ### Decoding: words written out from R86 and R87 -/

theorem test_decode_hlt : decodeBytes [0b00000001, 0b11111111, 0b11111111] = .ok .hlt := by rfl
theorem test_decode_ldi : decodeBytes [0b10000010, 0b00000111, 0b10010110] = .ok (.ldi 7 150) := by rfl
theorem test_decode_prn : decodeBytes [0b01000111, 0b00000001, 0b11111111] = .ok (.prn 1) := by rfl
theorem test_decode_mul : decodeBytes [0b10100010, 0b00000010, 0b00000101] = .ok (.mul 2 5) := by rfl
theorem test_decode_push : decodeBytes [0b01000101, 0b00000011, 0b00000000] = .ok (.push 3) := by rfl
theorem test_decode_pop : decodeBytes [0b01000110, 0b00001001, 0b10000010] = .ok (.pop 9) := by rfl

/-- R95: its four named neighbours and the zero byte (E6, E7, E8). -/
theorem test_decode_unknown :
    [0x00#8, 0x02, 0x44, 0x48, 0x81, 0x83, 0xA0, 0xA1, 0xA3, 0xFF].all (Opcode.ofByte · = none) = true := by decide

/-- Bit 0 of a table word is the lowest bit of the FIRST byte; the rest of the window is zeros. -/
theorem test_decodeTableWord : decodeTableWord 8 0x82 = some (.ldi 0 0) ∧ decodeTableWord 24 0x0403A2 = some (.mul 3 4) ∧
    decodeTableWord 8 0x0403A2 = some (.mul 0 0) ∧ decodeTableWord 8 0xFF = none := by decide

/-- The placed word runs as the first instruction after reset. -/
theorem test_withFetchWord_runs :
    after (step (State.reset.withFetchWord 8 0x82)) = after (exec (.ldi 0 0) (State.reset.withFetchWord 8 0x82)) := by
  decide

theorem test_withFetchWord_is_fetched :
    fetch (State.reset.withFetchWord 24 0x0403A2) = .ok ⟨0xA2, 0x03, 0x04⟩ := by rfl

/-! ### One step -/

/-- H2: ignored bytes above 7 do not fault; the pc stays. -/
theorem test_hlt_ignores_operands : after (step (start 0 256 0 [0x01, 0xFF, 0xFF])) =
    some ((start 0 256 0 [0x01, 0xFF, 0xFF]).setRun .halted) := by decide

/-- L2. -/
theorem test_ldi : (after (step (start 0 256 0 [0x82, 0x07, 0xFF]))).map (fun t => (t.x, t.pc)) =
    some (#v[0, 0, 0, 0, 0, 0, 0, 255], 3) := by decide

/-- L4. -/
theorem test_ldi_register_8 : faultAfter (step (start 0 256 0 [0x82, 0x08, 0x05])) =
    some ⟨3, .outOfRangeAddress .reg, 0, .index 8⟩ := by decide

/-- O3: operand-B is ignored. -/
theorem test_prn : (after (step ((start 0 256 0 [0x47, 0x01, 0xFF]).setReg 1 255))).map (fun t => (t.out, t.pc)) =
    some ([255], 2) := by decide

/-- O4: what was emitted is kept. -/
theorem test_prn_register_8 : (after (step ((start 0 256 0 [0x47, 0x08]).emit 3))).map (fun t => (t.out, t.pc, t.run)) =
    some ([3], 0, .halted) := by decide

/-- M6: 3 * 200 is 88 modulo 256, into the first register only. -/
theorem test_mul_wraps :
    (after (step (((start 0 256 0 [0xA2, 0x00, 0x01]).setReg 0 3).setReg 1 200))).map (fun t => (t.x[0], t.x[1], t.pc)) =
    some (88, 200, 3) := by decide

/-- M10: operand-A is checked before operand-B. -/
theorem test_mul_checks_operand_a_first : faultAfter (step (start 0 256 0 [0xA2, 0x09, 0xC8])) =
    some ⟨3, .outOfRangeAddress .reg, 0, .index 9⟩ := by decide

/-- K2: the last cell of the stack is the PUSH's own opcode byte. -/
theorem test_push_onto_itself :
    (after (step ((start 0 1 0 [0x45, 0x03]).setReg 3 42))).map (fun t => (t.sp, t.mem, t.pc, t.run)) =
    some (0, [(0, 42), (1, 0x03)], 2, .running) := by decide

/-- K3. -/
theorem test_push_overflow : faultAfter (step (start 0 0 0 [0x45, 0x00])) =
    some ⟨4, .stackOverflow, 0, .stackPointer 0⟩ := by decide

/-- K4: the cell is not cleared. -/
theorem test_pop_keeps_the_cell :
    (after (step ((start 0 255 0 [0x46, 0x02]).setMem [(0, 0x46), (1, 0x02), (255, 9)]))).map
      (fun t => (t.x[2], t.sp, t.mem.read 255, t.pc)) = some (9, 256, 9, 2) := by decide

/-- K7: the register index is checked before the empty stack. -/
theorem test_pop_checks_register_first : faultAfter (step (start 0 256 0 [0x46, 0x09])) =
    some ⟨3, .outOfRangeAddress .reg, 0, .index 9⟩ := by decide

/-- E4: the fetch comes before the look-up. -/
theorem test_fetch_fault_before_unknown_opcode : faultAfter (step (start 254 256 254 [0xFF])) =
    some ⟨2, .outOfRangeAddress .mem, 254, .address 256⟩ := by decide

/-- E7: no ADD. -/
theorem test_no_add_opcode : faultAfter (step (start 0 256 0 [0xA0, 0x00, 0x01])) =
    some ⟨1, .unknownOpcode, 0, .opcode 0xA0⟩ := by decide

/-- E9. -/
theorem test_halted_has_no_step : after (step (State.reset.setRun .halted)) = none := by decide

/-! ### The ALU alone -/

/-- The ADD vectors of 95_test_vectors.md, and 255 * 255 (M4). -/
theorem test_alu_results : aluAdd 255 1 = 0 ∧ aluAdd 200 100 = 44 ∧ aluAdd 255 255 = 254 ∧ aluAdd 9 0 = 9 ∧
    aluMul 255 255 = 1 ∧ aluMul 15 17 = 255 ∧ aluMul 16 16 = 0 := by decide

/-! ### The host's loader -/

/-- S4: a comment line, then a blank line, write nothing. -/
theorem test_load_comment_and_blank :
    loadText ['#', ' ', 'c', '\n', '\n'] = .ok State.reset := by rfl

/-- S5: "00000011 # comment" writes 3 at address 0. -/
theorem test_load_line_with_comment :
    loadText ['0', '0', '0', '0', '0', '0', '1', '1', ' ', '#', ' ', 'c'] = .ok (State.reset.setMem [(0, 3)]) := by rfl

/-- R263: a malformed line without a comment, and white space inside a literal, fail the load. -/
theorem test_load_malformed : loadText ['1', '\n', '2', '\n', '1'] = .error .malformedProgram ∧
    loadText ['1', ' ', '1'] = .error .malformedProgram := ⟨by rfl, by rfl⟩

/-! ### Witnesses: for every obligation with hypotheses, states and operands that meet them -/

/-- HLT in the last window. -/
def hltAt253 : State := start 253 256 253 [0x01]
/-- LDI R7,255 at 0. -/
def ldiAt0 : State := start 0 256 0 [0x82, 0x07, 0xFF]
/-- PRN R0 at 0. -/
def prnAt0 : State := start 0 256 0 [0x47]
/-- MUL R7,R7 at 0. -/
def mulAt0 : State := start 0 256 0 [0xA2, 0x07, 0x07]
/-- PUSH R0 at 0, the stack empty. -/
def pushAt0 : State := start 0 256 0 [0x45]
/-- POP R0 at 0, one value on the stack. -/
def popAt0 : State := start 0 255 0 [0x46]
/-- Halted by HLT. -/
def halted : State := hltAt253.setRun .halted
/-- Stopped by the unknown opcode 0 at 0. -/
def stopped : State := takeFault (.unknownOpcode 0) State.reset

theorem hltAt253_inv : hltAt253.Inv := inv_of_running _ (by decide)
theorem ldiAt0_inv : ldiAt0.Inv := inv_of_running _ (by decide)
theorem pushAt0_inv : pushAt0.Inv := inv_of_running _ (by decide)

theorem stopped_inv : stopped.Inv := by
  refine ⟨by decide, by decide, by decide, fun h => by simp [stopped] at h, fun r hr => ?_⟩
  simp only [stopped, takeFault_fault, Option.some.injEq] at hr
  subst hr
  exact ⟨rfl, rfl, by decide, rfl, rfl⟩

theorem witness_ResetAndImageLoad : ([] : List Byte).length ≤ 256 ∧ (List.replicate 256 0xFF#8).length ≤ 256 ∧
    (255 : Nat) < (List.replicate 256 0xFF#8).length := by
  rw [List.length_replicate]
  decide

/-- The pc past the last cell and no room on the stack. -/
def atTheEnd : State := start 256 0 0 []

theorem atTheEnd_inv : atTheEnd.Inv := inv_of_running _ (by decide)

/-- A completing and a faulting step from states of the invariant, the latter at the bounds of `pc` and `sp`; they
meet the hypotheses of AStepCompletesExactlyWhereItsRulesAreMet too. -/
theorem witness_EveryStepKeepsTheInvariant : ldiAt0.Inv ∧ (∃ t, step ldiAt0 = .next t) ∧
    atTheEnd.Inv ∧ ∃ t, step atTheEnd = .next t :=
  ⟨ldiAt0_inv, ⟨_, rfl⟩, atTheEnd_inv, ⟨_, rfl⟩⟩

theorem witness_EveryReachableState : Reachable ldiAt0 :=
  .loaded [0x82, 0x07, 0xFF] _ rfl

theorem witness_StepRunsTheDecodedInstruction :
    hltAt253.run = .running ∧ hltAt253.pc ≤ 253 ∧ hltAt253.currentInstr = .ok .hlt := ⟨rfl, by decide, rfl⟩

theorem witness_FetchBeyondMemory_first_and_last :
    (hltAt253.setPc 254).run = .running ∧ (hltAt253.setPc 254).pc ≤ 256 ∧ 255 < (hltAt253.setPc 254).pc + 2 ∧
    (hltAt253.setPc 256).run = .running ∧ (hltAt253.setPc 256).pc ≤ 256 ∧ 255 < (hltAt253.setPc 256).pc + 2 := by decide

theorem witness_UnknownOpcode_first_and_last : ∀ s ∈ [start 0 256 0 [0xFF], start 253 256 253 [0x02]],
    s.run = .running ∧ s.pc ≤ 253 ∧ s.mem.read s.pc ∉ [0x01#8, 0x82#8, 0x47#8, 0xA2#8, 0x45#8, 0x46#8] := by decide

theorem witness_Halted : halted.normalHalt ∧ stopped.run = .halted ∧ stopped.fault ≠ none :=
  ⟨⟨rfl, rfl⟩, rfl, by decide⟩

theorem witness_Hlt_last_window_and_beyond :
    (hltAt253.run = .running ∧ hltAt253.pc ≤ 253 ∧ hltAt253.mem.read hltAt253.pc = 0x01#8) ∧
    (∀ s ∈ [start 254 256 254 [0x01], start 255 256 255 [0x01]],
      s.run = .running ∧ (s.pc = 254 ∨ s.pc = 255) ∧ s.mem.read s.pc = 0x01#8) := by decide

/-- For LDI, PRN, MUL and the ALU: the last good and the first bad register index. -/
theorem witness_RegisterIndex_last_good_first_bad : (7#8).toNat ≤ 7 ∧ 7 < (8#8).toNat ∧ 7 < (255#8).toNat := by decide

/-- Room for a PUSH at both ends, and none. -/
theorem witness_Push_bounds : (7#8).toNat ≤ 7 ∧ pushAt0.mem.wf ∧ 0 < pushAt0.sp ∧ pushAt0.sp ≤ 256 ∧
    0 < (pushAt0.setSp 1).sp ∧ (pushAt0.setSp 1).sp ≤ 256 ∧ (pushAt0.setSp 0).sp = 0 ∧ 7 < (8#8).toNat := by decide

/-- A byte for a POP at both ends, and none. -/
theorem witness_Pop_bounds : (7#8).toNat ≤ 7 ∧ popAt0.sp = 255 ∧ (popAt0.setSp 0).sp < 256 ∧
    (popAt0.setSp 256).sp = 256 ∧ 7 < (8#8).toNat := by decide

/-- Each kind of state does change in some step. -/
theorem witness_EachPieceOfState :
    (∃ t, step (pushAt0.setReg 0 5) = .next t ∧ t.mem ≠ pushAt0.mem ∧ t.sp ≠ pushAt0.sp) ∧
    (∃ t, step popAt0 = .next t ∧ t.sp ≠ popAt0.sp) ∧
    (∃ t, step prnAt0 = .next t ∧ t.out ≠ prnAt0.out) ∧
    (∃ t, step ldiAt0 = .next t ∧ t.x[7] ≠ ldiAt0.x[7]) :=
  ⟨⟨_, rfl, by decide, by decide⟩, ⟨_, rfl, by decide⟩, ⟨_, rfl, by decide⟩, ⟨_, rfl, by decide⟩⟩

/-- PUSH R0 in two states that differ in R1. -/
theorem witness_AnInstructionReadsOnly :
    pushAt0.setReg 1 9 = { pushAt0 with x := (pushAt0.setReg 1 9).x } ∧
    (∀ j : Fin 8, (∃ r ∈ registersRead (.push 0), r.toNat = j.val) → (pushAt0.setReg 1 9).x[j] = pushAt0.x[j]) ∧
    (∃ t, exec (.push 0) pushAt0 = .next t) ∧ ∃ t, exec (.push 0) (pushAt0.setReg 1 9) = .next t :=
  ⟨rfl, by decide, ⟨_, rfl⟩, ⟨_, rfl⟩⟩

/-- Steps that complete, for the pc rule: one of each delta. -/
theorem witness_ThePcAdvances :
    hltAt253.Inv ∧ ldiAt0.Inv ∧ pushAt0.Inv ∧
    (∃ t, step hltAt253 = .next t ∧ t.fault = none ∧ t.pc = 253) ∧
    (∃ t, step ldiAt0 = .next t ∧ t.fault = none ∧ t.pc = 3) ∧
    (∃ t, step pushAt0 = .next t ∧ t.fault = none ∧ t.pc = 2) :=
  ⟨hltAt253_inv, ldiAt0_inv, pushAt0_inv, ⟨_, rfl, rfl, rfl⟩, ⟨_, rfl, rfl, rfl⟩, ⟨_, rfl, rfl, rfl⟩⟩

/-- A state of the invariant for every fault a step can report, in the order of R220, each with a lower one waiting. -/
def faulting : List State :=
  [start 254 256 254 [0xFF], start 0 0 0 [0xFF, 0x08, 0x08], start 0 0 0 [0x45, 0x08], start 0 256 0 [0xA2, 0x08, 0x09],
    start 0 256 0 [0xA2, 0x07, 0x08], start 0 0 0 [0x45, 0x07], start 0 256 0 [0x46, 0x07]]

theorem witness_faults_of_every_priority : (∀ s ∈ faulting, s.Inv) ∧
    faulting.map (fun s => (faultAfter (step s)).map (·.code)) =
      [some 2, some 1, some 3, some 3, some 3, some 4, some 5] := by
  refine ⟨fun s hs => inv_of_running s ?_, by decide⟩
  revert s
  decide

/-- A step that completes, a normal halt and a fatal stop. -/
theorem witness_ARunEnds :
    (ldiAt0.Inv ∧ ∃ t, step ldiAt0 = .next t ∧ t.run = .running) ∧
    (hltAt253.Inv ∧ ∃ t, step hltAt253 = .next t ∧ t.run = .halted) ∧
    (atTheEnd.Inv ∧ ∃ t, step atTheEnd = .next t ∧ t.run = .halted) :=
  ⟨⟨ldiAt0_inv, _, rfl, rfl⟩, ⟨hltAt253_inv, _, rfl, rfl⟩, ⟨atTheEnd_inv, _, rfl, rfl⟩⟩

theorem witness_AFaultRecordStays : ldiAt0.Inv ∧ ∃ r, (runFor 2 ldiAt0).fault = some r := ⟨ldiAt0_inv, _, rfl⟩

/-- For EveryRunHaltsWithin128Steps, and with a step for EveryStepHaltsOrMovesForwardInRange. -/
theorem witness_EveryRunHalts : State.reset.pc ≤ 256 ∧ atTheEnd.pc ≤ 256 ∧ (∃ t, step atTheEnd = .next t) ∧
    ldiAt0.pc ≤ 256 ∧ ∃ t, step ldiAt0 = .next t ∧ t.run = .running :=
  ⟨by decide, by decide, ⟨_, rfl⟩, by decide, _, rfl, rfl⟩

/-- Also where the two registers are one. -/
theorem witness_PushThenPop : (7#8).toNat ≤ 7 ∧ (0#8).toNat ≤ 7 ∧ pushAt0.mem.wf ∧ 0 < pushAt0.sp ∧ pushAt0.sp ≤ 256 := by
  decide

theorem witness_TheStackIsLastInFirstOut : pushAt0.mem.wf ∧ (pushAt0.setSp 2).sp ≤ 256 ∧
    [0#8, 7#8].length ≤ (pushAt0.setSp 2).sp ∧ (∀ r ∈ [0#8, 7#8], r.toNat ≤ 7) ∧ (3#8).toNat ≤ 7 := by decide

/-- A PUSH onto the next instruction's first byte, and one onto its own. -/
theorem witness_EveryLaterFetchSees : ∀ s ∈ [pushAt0.setSp 3, pushAt0.setSp 1],
    s.mem.wf ∧ s.run = .running ∧ 0 < s.sp ∧ s.sp ≤ 256 ∧ s.pc ≤ 253 := by decide

theorem witness_EveryLaterFetchSees_current : (pushAt0.setSp 3).currentInstr = .ok (.push 0) ∧
    (pushAt0.setSp 1).currentInstr = .ok (.push 0) := ⟨rfl, rfl⟩

/-- The fetch of the very next step covers the pushed byte. -/
theorem witness_EveryLaterFetchSees_next : ∃ t, step (pushAt0.setSp 3) = .next t ∧
    t.pc = pushAddress (pushAt0.setSp 3) ∧ t.pc ≤ 253 := ⟨_, rfl, rfl, by decide⟩

theorem witness_DecodingAndEncoding : 3 ≤ (encode .hlt ++ [0xFF#8, 0x82#8]).length ∧
    decodeBytes [0x47, 0x08, 0xFF] = .ok (.prn 8) := ⟨by decide, rfl⟩

theorem witness_APlacedWord : (State.reset.setPc 253).run = .running ∧ (State.reset.setPc 253).pc ≤ 253 ∧
    (State.reset.setPc 253).mem.wf ∧ decodeTableWord 8 0x47 = some (.prn 0) := by decide

/-- The line of S5, a line of white space only, and 11111111 between blanks. -/
def goodLines : List (ProgramLine × List Bool) :=
  [(⟨[], digitsText [false, false, false, false, false, false, true, true], [' '], some [' ', 'c']⟩,
      [false, false, false, false, false, false, true, true]),
    (⟨[' ', '\t'], [], [], none⟩, []),
    (⟨[' '], digitsText (List.replicate 8 true), [' ', ' '], none⟩, List.replicate 8 true)]

/-- The malformed line "102" without a comment. -/
def malformedLine : ProgramLine := ⟨[], ['1', '0', '2'], [], none⟩

/-- The line "100000000 #", 256. -/
def tooLargeLine : ProgramLine := ⟨[], digitsText (true :: List.replicate 8 false), [' '], some []⟩

theorem goodLines_carry : ∀ l ∈ goodLines, l.1.Carries l.2 := by
  intro l hl
  simp only [goodLines, List.mem_cons, List.not_mem_nil, or_false] at hl
  rcases hl with rfl | rfl | rfl
  all_goals exact ⟨⟨by simp, by simp, by simp [digitsText], by simp [digitsText], by simp [digitsText], by simp⟩, rfl, by decide⟩

theorem malformedLine_malformed : malformedLine.Malformed :=
  ⟨⟨by simp [malformedLine], by simp [malformedLine], by simp [malformedLine], by simp [malformedLine],
    by simp [malformedLine], by simp [malformedLine]⟩, '2', by simp [malformedLine], by simp⟩

theorem tooLargeLine_tooLarge : tooLargeLine.TooLarge :=
  ⟨⟨by simp [tooLargeLine], by simp [tooLargeLine], by simp [tooLargeLine, digitsText],
    by simp [tooLargeLine, digitsText], by simp [tooLargeLine, digitsText], by simp [tooLargeLine]⟩, _, rfl, by decide⟩

theorem witness_AProgramText : (∀ l ∈ goodLines, l.1.Carries l.2) ∧
    (goodLines.filterMap fun l => literalByte l.2) = [3, 255] := ⟨goodLines_carry, by decide⟩

theorem witness_TheHostRefuses_image : 256 < (List.replicate 257 0#8).length := by
  rw [List.length_replicate]
  decide

/-- Also the hypotheses on what stands before and after the line, at both of their cases. -/
theorem witness_TheHostRefuses_line : malformedLine.Malformed ∧ tooLargeLine.TooLarge ∧
    ['0', '\n'].getLast? = some '\n' ∧ ['\n', '1'].head? = some '\n' :=
  ⟨malformedLine_malformed, tooLargeLine_tooLarge, rfl, rfl⟩

theorem witness_TheFirstBadLine : (∀ l ∈ goodLines, l.1.Carries l.2) ∧ malformedLine.Malformed ∧
    tooLargeLine.TooLarge ∧ ['\n', '1'].head? = some '\n' :=
  ⟨goodLines_carry, malformedLine_malformed, tooLargeLine_tooLarge, rfl⟩

theorem witness_TheHostReports : stopped.Inv ∧ ∃ r, stopped.fault = some r := ⟨stopped_inv, _, rfl⟩

end Sys2Proof.Tests
end

/-! PROOFS. The state of the CORE (10_state.md): reset and load, the invariant, and what a step changes.

First the layer every proof below uses: what each handler raises (`Raises`), what it writes when it completes
(`Completes`), and, from the two, everything one step can do (`step_inversion`). -/

namespace Sys2Proof.Machine

/-! ### What a handler raises and what it writes -/

/-- The first register operand above 7, in the order the operands are checked (R25, R220). -/
def firstBadRegister (i : Instr) : Option Byte := i.registerOperands.find? fun r => 7 < r.toNat

/-- The handler of `i` raises `f` in `s` (R25, R190, R195). The last two cases are of stack pointers above 256,
which no run reaches (log entry 4). -/
inductive Raises (s : State) : Instr → FaultCause → Prop where
  | badRegister {i : Instr} {r : Byte} (h : firstBadRegister i = some r) : Raises s i (.outOfRangeReg r)
  | overflow {reg : Byte} (h : reg.toNat < 8) (hsp : s.sp = 0) : Raises s (.push reg) (.stackOverflow 0)
  | underflow {reg : Byte} (h : reg.toNat < 8) (hsp : s.sp = 256) : Raises s (.pop reg) (.stackUnderflow 256)
  | pushBeyond {reg : Byte} (h : reg.toNat < 8) (hsp : 256 < s.sp) : Raises s (.push reg) (.outOfRangeMem (s.sp - 1))
  | popBeyond {reg : Byte} (h : reg.toNat < 8) (hsp : 256 < s.sp) : Raises s (.pop reg) (.outOfRangeMem s.sp)

/-- The handler of `i` completes in `s`, having written the state `s'`; the pc and the run state come later
(R117, R118). -/
inductive Completes (s : State) : Instr → State → Prop where
  | hlt : Completes s .hlt s
  | ldi {reg imm : Byte} (h : reg.toNat < 8) : Completes s (.ldi reg imm) (s.setReg ⟨reg.toNat, h⟩ imm)
  | prn {reg : Byte} (h : reg.toNat < 8) : Completes s (.prn reg) (s.emit s.x[reg.toNat])
  | mul {regA regB : Byte} (ha : regA.toNat < 8) (hb : regB.toNat < 8) :
      Completes s (.mul regA regB) (s.setReg ⟨regA.toNat, ha⟩ (aluMul s.x[regA.toNat] s.x[regB.toNat]))
  | push {reg : Byte} (h : reg.toNat < 8) (h0 : 0 < s.sp) (h1 : s.sp ≤ 256) :
      Completes s (.push reg) ((s.setSp (s.sp - 1)).setMem (s.mem.write (s.sp - 1) s.x[reg.toNat]))
  | pop {reg : Byte} (h : reg.toNat < 8) (hsp : s.sp < 256) :
      Completes s (.pop reg) ((s.setReg ⟨reg.toNat, h⟩ (s.mem.read s.sp)).setSp (s.sp + 1))

/-- The handler the dispatcher runs for an instruction (R115). -/
def handlerOf : Instr → State → Except FaultCause Handled
  | .hlt => handleHlt
  | .ldi reg imm => handleLdi reg imm
  | .prn reg => handlePrn reg
  | .mul regA regB => handleMul regA regB
  | .push reg => handlePush reg
  | .pop reg => handlePop reg

theorem exec_eq_finish (i : Instr) (s : State) : exec i s = .next (finish s (handlerOf i s)) := by
  cases i <;> rfl

theorem firstBadRegister_gt {i : Instr} {r : Byte} (h : firstBadRegister i = some r) : 7 < r.toNat := by
  simpa using List.find?_some h

/-- For an instruction with one register operand, that operand is the first bad one where it is above 7. -/
theorem firstBadRegister_single {i : Instr} {r : Byte} (hi : i.registerOperands = [r]) (h : ¬ r.toNat < 8) :
    firstBadRegister i = some r := by
  simp [firstBadRegister, hi, show 7 < r.toNat by omega]

/-- Every handler either raises or completes (R116). -/
theorem handlerOf_cases (i : Instr) (s : State) :
    (∃ f, Raises s i f ∧ handlerOf i s = .error f) ∨
      ∃ s', Completes s i s' ∧ handlerOf i s = .ok (report i.opcode s') := by
  cases i with
  | hlt => exact .inr ⟨s, .hlt, rfl⟩
  | ldi reg imm =>
    simp only [handlerOf, handleLdi_spec]
    split
    · exact .inr ⟨_, .ldi ‹_›, rfl⟩
    · exact .inl ⟨_, .badRegister (firstBadRegister_single rfl ‹_›), rfl⟩
  | prn reg =>
    simp only [handlerOf, handlePrn_spec]
    split
    · exact .inr ⟨_, .prn ‹_›, rfl⟩
    · exact .inl ⟨_, .badRegister (firstBadRegister_single rfl ‹_›), rfl⟩
  | mul regA regB =>
    simp only [handlerOf, handleMul_spec]
    split
    case isFalse ha =>
      refine .inl ⟨_, .badRegister (r := regA) ?_, rfl⟩
      simp [firstBadRegister, Instr.registerOperands, show 7 < regA.toNat by omega]
    case isTrue ha =>
      split
      case isTrue hb => exact .inr ⟨_, .mul ha hb, rfl⟩
      case isFalse hb =>
        refine .inl ⟨_, .badRegister (r := regB) ?_, rfl⟩
        simp [firstBadRegister, Instr.registerOperands, show ¬ 7 < regA.toNat by omega, show 7 < regB.toNat by omega]
  | push reg =>
    simp only [handlerOf, handlePush_spec]
    split
    case isFalse h => exact .inl ⟨_, .badRegister (firstBadRegister_single rfl h), rfl⟩
    case isTrue h =>
      split
      case isTrue h0 => exact .inl ⟨_, .overflow h h0, by rw [h0]⟩
      case isFalse h0 =>
        split
        case isTrue h1 => exact .inr ⟨_, .push h (by omega) h1, rfl⟩
        case isFalse h1 => exact .inl ⟨_, .pushBeyond h (by omega), rfl⟩
  | pop reg =>
    simp only [handlerOf, handlePop_spec]
    split
    case isFalse h => exact .inl ⟨_, .badRegister (firstBadRegister_single rfl h), rfl⟩
    case isTrue h =>
      split
      case isTrue h0 => exact .inl ⟨_, .underflow h h0, by rw [h0]⟩
      case isFalse h0 =>
        split
        case isTrue h1 => exact .inr ⟨_, .pop h h1, rfl⟩
        case isFalse h1 => exact .inl ⟨_, .popBeyond h (by omega), rfl⟩

theorem handlerOf_of_completes {i : Instr} {s s' : State} (h : Completes s i s') :
    handlerOf i s = .ok (report i.opcode s') := by
  cases h with
  | hlt => rfl
  | ldi h => simp [handlerOf, handleLdi_spec, h, Instr.opcode]
  | prn h => simp [handlerOf, handlePrn_spec, h, Instr.opcode]
  | mul ha hb => simp [handlerOf, handleMul_spec, ha, hb, Instr.opcode]
  | push h h0 h1 => simp [handlerOf, handlePush_spec, h, h1, Nat.ne_of_gt h0, Instr.opcode]
  | pop h hsp => simp [handlerOf, handlePop_spec, h, hsp, Nat.ne_of_lt hsp, Instr.opcode]

/-- Of the two operands of MUL the first one above 7 is reported (R145). -/
theorem handleMul_of_badRegister {regA regB r : Byte} (h : firstBadRegister (.mul regA regB) = some r) (s : State) :
    handleMul regA regB s = .error (.outOfRangeReg r) := by
  rw [handleMul_spec]
  by_cases ha : 7 < regA.toNat
  · obtain rfl : regA = r := by simpa [firstBadRegister, Instr.registerOperands, ha] using h
    simp [show ¬ regA.toNat < 8 by omega]
  · by_cases hb : 7 < regB.toNat
    · obtain rfl : regB = r := by simpa [firstBadRegister, Instr.registerOperands, ha, hb] using h
      simp [show regA.toNat < 8 by omega, show ¬ regB.toNat < 8 by omega]
    · simp [firstBadRegister, Instr.registerOperands, ha, hb] at h

/-- A handler with a bad register operand raises before anything else (R220). -/
theorem handlerOf_of_badRegister {i : Instr} {r : Byte} (h : firstBadRegister i = some r) (s : State) :
    handlerOf i s = .error (.outOfRangeReg r) := by
  have single : ∀ reg : Byte, [reg].find? (fun r => 7 < r.toNat) = some r → reg = r ∧ ¬ reg.toNat < 8 := by
    intro reg hreg
    obtain ⟨hbad, rfl⟩ : 7 < reg.toNat ∧ reg = r := by simpa using hreg
    exact ⟨rfl, by omega⟩
  cases i with
  | hlt => cases h
  | mul regA regB => exact handleMul_of_badRegister h s
  | ldi reg imm =>
    obtain ⟨rfl, hbad⟩ := single reg h
    simp [handlerOf, handleLdi_spec, hbad]
  | prn reg =>
    obtain ⟨rfl, hbad⟩ := single reg h
    simp [handlerOf, handlePrn_spec, hbad]
  | push reg =>
    obtain ⟨rfl, hbad⟩ := single reg h
    simp [handlerOf, handlePush_spec, hbad]
  | pop reg =>
    obtain ⟨rfl, hbad⟩ := single reg h
    simp [handlerOf, handlePop_spec, hbad]

theorem handlerOf_of_raises {i : Instr} {s : State} {f : FaultCause} (h : Raises s i f) :
    handlerOf i s = .error f := by
  cases h with
  | badRegister h => exact handlerOf_of_badRegister h s
  | overflow h hsp => simp [handlerOf, handlePush_spec, h, hsp]
  | underflow h hsp => simp [handlerOf, handlePop_spec, h, hsp]
  | pushBeyond h hsp =>
    simp [handlerOf, handlePush_spec, h, show s.sp ≠ 0 by omega, show ¬ s.sp ≤ 256 by omega]
  | popBeyond h hsp =>
    simp [handlerOf, handlePop_spec, h, show s.sp ≠ 256 by omega, show ¬ s.sp < 256 by omega]

/-! ### The end of a step -/

/-- What the engine makes of the state a completed handler wrote: the continue flag, then the pc delta (R117, R118). -/
def State.endStep (s' : State) (i : Instr) : State :=
  (s'.setRun (runOf (continueFlag i.opcode))).setPc (s'.pc + pcDelta i.opcode)

section
variable (s' : State) (i : Instr)

theorem finish_report (s : State) : finish s (.ok (report i.opcode s')) = s'.endStep i := rfl

@[simp] theorem State.endStep_mem : (s'.endStep i).mem = s'.mem := rfl
@[simp] theorem State.endStep_x : (s'.endStep i).x = s'.x := rfl
@[simp] theorem State.endStep_pc : (s'.endStep i).pc = s'.pc + pcDelta i.opcode := rfl
@[simp] theorem State.endStep_sp : (s'.endStep i).sp = s'.sp := rfl
@[simp] theorem State.endStep_run : (s'.endStep i).run = runOf (continueFlag i.opcode) := rfl
@[simp] theorem State.endStep_fault : (s'.endStep i).fault = s'.fault := rfl
@[simp] theorem State.endStep_out : (s'.endStep i).out = s'.out := rfl

end

/-- An instruction takes its fault or ends the step it completed (R13, R116). -/
theorem exec_cases {i : Instr} {s t : State} (h : exec i s = .next t) :
    (∃ f, Raises s i f ∧ t = takeFault f s) ∨ ∃ s', Completes s i s' ∧ t = s'.endStep i := by
  rw [exec_eq_finish] at h
  obtain ⟨f, hf, he⟩ | ⟨s', hs', he⟩ := handlerOf_cases i s
  · rw [he] at h
    cases h
    exact .inl ⟨f, hf, rfl⟩
  · rw [he, finish_report] at h
    cases h
    exact .inr ⟨s', hs', rfl⟩

theorem exec_of_completes {i : Instr} {s s' : State} (h : Completes s i s') : exec i s = .next (s'.endStep i) := by
  rw [exec_eq_finish, handlerOf_of_completes h, finish_report]

theorem exec_of_raises {i : Instr} {s : State} {f : FaultCause} (h : Raises s i f) :
    exec i s = .next (takeFault f s) := by
  rw [exec_eq_finish, handlerOf_of_raises h, finish_error]

/-! ### One step -/

/-- A RUNNING step from `s` raises `f`: in the fetch (R113), in the look-up (R114) or in the handler (R116). -/
inductive StepRaises (s : State) : FaultCause → Prop where
  | fetch {a : Nat} (hpc : 254 ≤ s.pc) (ha : s.pc ≤ 256 → a = 256) : StepRaises s (.outOfRangeMem a)
  | lookUp (hpc : s.pc ≤ 253) (h : Opcode.ofByte (s.mem.read s.pc) = none) :
      StepRaises s (.unknownOpcode (s.mem.read s.pc))
  | handler {i : Instr} {f : FaultCause} (hpc : s.pc ≤ 253) (hi : s.currentInstr = .ok i) (h : Raises s i f) :
      StepRaises s f

theorem decode_error {w : InstrRecord} {e : DecodeReject} (h : decode w = .error e) :
    Opcode.ofByte w.opcode = none := by
  unfold decode at h
  split at h
  · cases h
  · assumption

/-- A fetch fault is one of address 256 from every pc a run reaches (R113). -/
theorem stepRaises_of_fetch_error {s : State} {f : FaultCause} (h : fetch s = .error f) : StepRaises s f := by
  have hpc : 254 ≤ s.pc := by
    by_contra hlt
    rw [fetch_of_le s (by omega)] at h
    cases h
  obtain ⟨a, ha⟩ := fetch_fails_of_ge s hpc
  obtain rfl : FaultCause.outOfRangeMem a = f := by simpa [ha] using h
  refine .fetch hpc fun hle => ?_
  simpa [fetch_of_ge s hpc hle] using ha.symm

/-- A fetch that succeeds is of a window inside memory, as it stands there (R112). -/
theorem fetch_ok {s : State} {w : InstrRecord} (h : fetch s = .ok w) :
    s.pc ≤ 253 ∧ w = ⟨s.mem.read s.pc, s.mem.read (s.pc + 1), s.mem.read (s.pc + 2)⟩ := by
  have hpc : s.pc ≤ 253 := by
    by_contra hgt
    obtain ⟨a, ha⟩ := fetch_fails_of_ge s (by omega)
    rw [ha] at h
    cases h
  rw [fetch_of_le s hpc] at h
  cases h
  exact ⟨hpc, rfl⟩

/-- Everything one step can do: it starts RUNNING, and either takes the fault it raises, or completes the instruction
at the pc (R119). -/
theorem step_inversion {s t : State} (h : step s = .next t) :
    s.run = .running ∧
      ((∃ f, StepRaises s f ∧ t = takeFault f s) ∨
        ∃ i s', s.pc ≤ 253 ∧ s.currentInstr = .ok i ∧ Completes s i s' ∧ t = s'.endStep i) := by
  obtain ⟨hrun, ⟨f, hf, rfl⟩ | ⟨w, e, hw, he, rfl⟩ | ⟨w, i, hw, hi, hx⟩⟩ := step_cases s t h
  · exact ⟨hrun, .inl ⟨f, stepRaises_of_fetch_error hf, rfl⟩⟩
  · obtain ⟨hpc, rfl⟩ := fetch_ok hw
    exact ⟨hrun, .inl ⟨_, .lookUp hpc (decode_error he), rfl⟩⟩
  · obtain ⟨hpc, rfl⟩ := fetch_ok hw
    obtain ⟨f, hf, rfl⟩ | ⟨s', hs', rfl⟩ := exec_cases hx
    · exact ⟨hrun, .inl ⟨f, .handler hpc hi hf, rfl⟩⟩
    · exact ⟨hrun, .inr ⟨i, s', hpc, hi, hs', rfl⟩⟩

/-! ### What a completing handler leaves unchanged -/

namespace Completes

variable {s s' : State} {i : Instr}

theorem pc_eq (h : Completes s i s') : s'.pc = s.pc := by cases h <;> rfl

theorem fault_eq (h : Completes s i s') : s'.fault = s.fault := by cases h <;> rfl

/-- Memory is written by PUSH only (R21). -/
theorem mem_eq_or_push (h : Completes s i s') : s'.mem = s.mem ∨ ∃ r, i = .push r := by
  cases h with
  | push => exact .inr ⟨_, rfl⟩
  | hlt | ldi | prn | mul | pop => exact .inl rfl

/-- The stack pointer is written by PUSH and POP only (R31). -/
theorem sp_eq_or_stack (h : Completes s i s') : s'.sp = s.sp ∨ ∃ r, i = .push r ∨ i = .pop r := by
  cases h with
  | push => exact .inr ⟨_, .inl rfl⟩
  | pop => exact .inr ⟨_, .inr rfl⟩
  | hlt | ldi | prn | mul => exact .inl rfl

/-- The output is written by PRN only, which appends one value (R34). -/
theorem out_eq_or_prn (h : Completes s i s') : s'.out = s.out ∨ ∃ r v, i = .prn r ∧ s'.out = s.out ++ [v] := by
  cases h with
  | prn => exact .inr ⟨_, _, rfl, rfl⟩
  | hlt | ldi | mul | push | pop => exact .inl rfl

/-- A register is written only by an instruction that names it as one it writes (R24). -/
theorem reg_eq_or_written (h : Completes s i s') (j : Fin 8) :
    s'.x[j] = s.x[j] ∨ ∃ r ∈ registersWritten i, r.toNat = j.val := by
  have written : ∀ (r : Byte) (hr : r.toNat < 8) (v : Byte),
      (s.setReg ⟨r.toNat, hr⟩ v).x[j] = s.x[j] ∨ ∃ r' ∈ [r], r'.toNat = j.val := by
    intro r hr v
    by_cases hj : j = ⟨r.toNat, hr⟩
    · exact .inr ⟨r, List.mem_singleton_self r, by rw [hj]⟩
    · exact .inl (s.setReg_get_ne _ j v hj)
  cases h with
  | ldi h => exact written _ h _
  | mul ha hb => exact written _ ha _
  | pop h hsp => exact written _ h _
  | hlt | prn | push => exact .inl rfl

theorem mem_wf (h : Completes s i s') (hm : s.mem.wf) : s'.mem.wf := by
  cases h with
  | push h h0 h1 => exact s.mem.write_wf _ _ hm (show s.sp - 1 < 256 by omega)
  | hlt | ldi | prn | mul | pop => exact hm

theorem sp_le (h : Completes s i s') (hsp : s.sp ≤ 256) : s'.sp ≤ 256 := by
  cases h with
  | push h h0 h1 => exact Nat.le_trans (Nat.sub_le _ _) h1
  | pop h hlt => exact hlt
  | hlt | ldi | prn | mul => exact hsp

end Completes

/-! ### Bounds of the pc delta -/

theorem pcDelta_le (op : Opcode) : pcDelta op ≤ 3 := by cases op <;> decide

/-- An opcode either halts or goes on with a pc at least 2 higher (R90). -/
theorem halts_or_advances (op : Opcode) :
    runOf (continueFlag op) = .halted ∨ (runOf (continueFlag op) = .running ∧ 2 ≤ pcDelta op) := by
  cases op <;> decide

/-! ### The invariant -/

theorem inv_of_no_fault {s : State} (hm : s.mem.wf) (hpc : s.pc ≤ 256) (hsp : s.sp ≤ 256) (hf : s.fault = none) :
    s.Inv :=
  ⟨hm, hpc, hsp, fun _ => hf, fun r hr => by rw [hf] at hr; cases hr⟩

/-- The record a step writes tells the truth of the state it leaves (R210, R211). -/
theorem StepRaises.record_tells {s : State} {f : FaultCause} (h : StepRaises s f) (hpc : s.pc ≤ 256)
    (hsp : s.sp ≤ 256) : (f.record s.pc).tells (takeFault f s) := by
  cases h with
  | fetch hlow ha => exact ⟨rfl, rfl, hlow, ha hpc⟩
  | lookUp hpc h => exact ⟨rfl, rfl, hpc, rfl, h⟩
  | handler hpc hi h =>
    cases h with
    | badRegister h => exact ⟨rfl, rfl, hpc, firstBadRegister_gt h⟩
    | overflow h hsp => exact ⟨rfl, rfl, hpc, rfl, hsp⟩
    | underflow h hsp => exact ⟨rfl, rfl, hpc, rfl, hsp⟩
    | pushBeyond h hbeyond => omega
    | popBeyond h hbeyond => omega

/-- Taking a fault a step raises keeps the invariant (R222). -/
theorem inv_takeFault {s : State} {f : FaultCause} (hs : s.Inv) (h : StepRaises s f) : (takeFault f s).Inv where
  memWf := hs.memWf
  pcRange := hs.pcRange
  spRange := hs.spRange
  runningNoFault := fun hr => by cases hr
  recordTells := fun r hr => by
    obtain rfl : f.record s.pc = r := by simpa using hr
    exact h.record_tells hs.pcRange hs.spRange

/-- Completing an instruction whose window lies in memory keeps the invariant. -/
theorem inv_endStep {s s' : State} {i : Instr} (hs : s.Inv) (hrun : s.run = .running) (hpc : s.pc ≤ 253)
    (h : Completes s i s') : (s'.endStep i).Inv := by
  have hpc' : s'.pc + pcDelta i.opcode ≤ 256 := by
    have := pcDelta_le i.opcode
    rw [h.pc_eq]
    omega
  exact inv_of_no_fault (h.mem_wf hs.memWf) hpc' (h.sp_le hs.spRange) (h.fault_eq.trans (hs.runningNoFault hrun))

theorem step_keeps_inv {s t : State} (hs : s.Inv) (h : step s = .next t) : t.Inv := by
  obtain ⟨hrun, ⟨f, hf, rfl⟩ | ⟨i, s', hpc, -, hc, rfl⟩⟩ := step_inversion h
  · exact inv_takeFault hs hf
  · exact inv_endStep hs hrun hpc hc

/-- Settles O3: every way a step can end keeps the invariant. -/
theorem everyStepKeepsTheInvariant : Obligations.EveryStepKeepsTheInvariant :=
  fun _ _ hs h => step_keeps_inv hs h

/-- Settles O25: a fault halts where it is, and a completed window below 254 moves on by 2 or 3 or is HLT's. -/
theorem everyStepHaltsOrMovesForwardInRange : Obligations.EveryStepHaltsOrMovesForwardInRange := by
  intro s t hle h
  obtain ⟨-, ⟨f, -, rfl⟩ | ⟨i, s', hpc, -, hc, rfl⟩⟩ := step_inversion h
  · exact ⟨hle, .inl rfl⟩
  · have hmax := pcDelta_le i.opcode
    rw [State.endStep_pc, State.endStep_run, hc.pc_eq]
    refine ⟨by omega, (halts_or_advances i.opcode).imp_right fun ⟨hrun, hmin⟩ => ⟨hrun, by omega⟩⟩

/-! ### Reset and image load -/

/-- The bytes written stand at the addresses they were written to. -/
theorem Memory.read_writeBytes_getElem (m : Memory) (a k : Nat) (vs : List Byte) (hm : m.wf)
    (ha : a + vs.length ≤ 256) (hk : k < vs.length) : (m.writeBytes a vs).read (a + k) = vs[k] := by
  induction vs generalizing m a k with
  | nil => cases hk
  | cons v vs ih =>
    rw [List.length_cons] at ha hk
    have hlt : a < 256 := by omega
    rw [Memory.writeBytes, if_pos hlt]
    cases k with
    | zero =>
      rw [Memory.read_writeBytes_lt _ (a + 1) _ _ (by omega)]
      exact m.read_write_same a v hm
    | succ k =>
      rw [show a + (k + 1) = a + 1 + k by omega, ih _ _ _ (m.write_wf a v hm hlt) (by omega) (by omega)]
      rfl

/-- Writing bytes leaves every cell above them alone. -/
theorem Memory.read_writeBytes_ge (m : Memory) (a b : Nat) (vs : List Byte) (h : a + vs.length ≤ b) :
    (m.writeBytes a vs).read b = m.read b := by
  induction vs generalizing m a with
  | nil => rfl
  | cons v vs ih =>
    rw [List.length_cons] at h
    rw [Memory.writeBytes, ih _ _ (by omega)]
    split
    · exact m.read_write_ne a b v (by omega)
    · rfl

/-- An accepted image gives the reset state with its bytes in memory (R252, R264). -/
theorem loadImage_of_le {image : List Byte} (h : image.length ≤ 256) :
    loadImage image = .ok (State.reset.setMem (Memory.writeBytes [] 0 image)) := by
  rw [loadImage, if_pos h]
  rfl

theorem loadImage_ok {image : List Byte} {s : State} (h : loadImage image = .ok s) :
    s = State.reset.setMem (Memory.writeBytes [] 0 image) := by
  unfold loadImage at h
  split at h
  · cases h
    rfl
  · cases h

/-- Settles O1: the image load writes its bytes into an empty memory and touches no other field. -/
theorem resetAndImageLoadGiveTheTabledState : Obligations.ResetAndImageLoadGiveTheTabledState := by
  refine ⟨⟨fun a => rfl, fun i => by simp [State.reset], rfl, rfl, rfl, rfl, rfl⟩, fun image hlen => ?_⟩
  refine ⟨_, loadImage_of_le hlen, fun k hk => ?_, fun a ha => ?_, rfl⟩
  · simpa using Memory.read_writeBytes_getElem [] 0 k image Memory.nil_wf (by omega) hk
  · exact Memory.read_writeBytes_ge [] 0 a image (by omega)

/-- The invariant holds of every memory in canonical form with every other field as at reset. -/
theorem inv_reset_setMem {m : Memory} (hm : m.wf) : (State.reset.setMem m).Inv :=
  inv_of_no_fault hm (Nat.zero_le _) (Nat.le_refl _) rfl

/-- Settles O2. -/
theorem invariantHoldsAtReset : Obligations.InvariantHoldsAtReset := inv_reset_setMem Memory.nil_wf

/-- Settles O4, by induction on the run: a loaded image meets the invariant and every step keeps it. -/
theorem everyReachableStateMeetsTheInvariant : Obligations.EveryReachableStateMeetsTheInvariant := by
  intro s hs
  induction hs with
  | loaded image s h =>
    rw [loadImage_ok h]
    exact inv_reset_setMem (Memory.writeBytes_wf _ _ _ Memory.nil_wf)
  | stepped s t _ h ih => exact step_keeps_inv ih h

/-! ### Which instruction changes what -/

/-- The instructions that write a register, by the register they write (R24). -/
theorem instr_of_mem_registersWritten {i : Instr} {r : Byte} (h : r ∈ registersWritten i) :
    (∃ v, i = .ldi r v) ∨ (∃ b, i = .mul r b) ∨ i = .pop r := by
  cases i with
  | ldi reg imm => exact .inl ⟨imm, by rw [List.mem_singleton.mp h]⟩
  | mul regA regB => exact .inr (.inl ⟨regB, by rw [List.mem_singleton.mp h]⟩)
  | pop reg => exact .inr (.inr (by rw [List.mem_singleton.mp h]))
  | hlt | prn | push => cases h

/-- Settles O17: a fault changes none of the four, and a completing handler only what its instruction may write. -/
theorem eachPieceOfStateChangesOnlyUnderItsInstructions :
    Obligations.EachPieceOfStateChangesOnlyUnderItsInstructions := by
  intro s t h
  obtain ⟨-, ⟨f, -, rfl⟩ | ⟨i, s', -, hi, hc, rfl⟩⟩ := step_inversion h
  · exact ⟨fun hne => absurd rfl hne, fun hne => absurd rfl hne, fun hne => absurd rfl hne,
      fun j hne => absurd rfl hne⟩
  rw [hi]
  refine ⟨fun hne => ?_, fun hne => ?_, fun hne => ?_, fun j hne => ?_⟩
  · obtain ⟨r, rfl⟩ := hc.mem_eq_or_push.resolve_left hne
    exact ⟨r, rfl⟩
  · obtain ⟨r, rfl | rfl⟩ := hc.sp_eq_or_stack.resolve_left hne
    · exact ⟨r, .inl rfl⟩
    · exact ⟨r, .inr rfl⟩
  · obtain ⟨r, v, rfl, -⟩ := hc.out_eq_or_prn.resolve_left hne
    exact ⟨r, rfl⟩
  · obtain ⟨r, hr, hj⟩ := (hc.reg_eq_or_written j).resolve_left hne
    refine ⟨r, hj, ?_⟩
    obtain ⟨v, rfl⟩ | ⟨b, rfl⟩ | rfl := instr_of_mem_registersWritten hr
    · exact .inl ⟨v, rfl⟩
    · exact .inr (.inl ⟨b, rfl⟩)
    · exact .inr (.inr rfl)

/-! ### Which registers can influence an instruction -/

/-- The state with another register file. -/
def State.setRegs (s : State) (x : Vector Byte 8) : State := { s with x := x }

/-- What an instruction raises does not depend on any register's value. -/
theorem Raises.setRegs {s : State} {i : Instr} {f : FaultCause} (h : Raises s i f) (x : Vector Byte 8) :
    Raises (s.setRegs x) i f := by
  cases h with
  | badRegister h => exact .badRegister h
  | overflow h hsp => exact .overflow h hsp
  | underflow h hsp => exact .underflow h hsp
  | pushBeyond h hsp => exact .pushBeyond h hsp
  | popBeyond h hsp => exact .popBeyond h hsp

/-- Two register files written alike at one register agree there and keep every other register. -/
theorem set_agrees_or_keeps (x y : Vector Byte 8) (r : Byte) (hr : r.toNat < 8) (v : Byte) (j : Fin 8) :
    ((y.set r.toNat v)[j] = (x.set r.toNat v)[j] ∧ ∃ r' ∈ [r], r'.toNat = j.val) ∨
      ((x.set r.toNat v)[j] = x[j] ∧ (y.set r.toNat v)[j] = y[j]) := by
  by_cases hj : r.toNat = j.val
  · exact .inl ⟨by simp [hj], r, List.mem_singleton_self r, hj⟩
  · exact .inr ⟨by simp [Vector.getElem_set_ne, hj], by simp [Vector.getElem_set_ne, hj]⟩

/-- An instruction that completes also completes with any other register file that agrees on the registers it reads,
and then differs in registers only: each it has written alike or kept (R24). -/
theorem Completes.setRegs {s s' : State} {i : Instr} (h : Completes s i s') {y : Vector Byte 8}
    (hread : ∀ j : Fin 8, (∃ r ∈ registersRead i, r.toNat = j.val) → y[j] = s.x[j]) :
    ∃ y', Completes (s.setRegs y) i (s'.setRegs y') ∧
      ∀ j : Fin 8, (y'[j] = s'.x[j] ∧ ∃ r ∈ registersWritten i, r.toNat = j.val) ∨
        (s'.x[j] = s.x[j] ∧ y'[j] = y[j]) := by
  have read : ∀ (r : Byte) (hr : r.toNat < 8), r ∈ registersRead i → (s.setRegs y).x[r.toNat] = s.x[r.toNat] :=
    fun r hr hmem => hread ⟨r.toNat, hr⟩ ⟨r, hmem, rfl⟩
  cases h with
  | hlt => exact ⟨y, .hlt, fun j => .inr ⟨rfl, rfl⟩⟩
  | @ldi reg imm h => exact ⟨y.set reg.toNat imm, .ldi h, set_agrees_or_keeps s.x y reg h imm⟩
  | @prn reg h =>
    have hc := Completes.prn (s := s.setRegs y) h
    rw [read reg h (by simp [registersRead])] at hc
    exact ⟨y, hc, fun j => .inr ⟨rfl, rfl⟩⟩
  | @mul regA regB ha hb =>
    have hc := Completes.mul (s := s.setRegs y) ha hb
    rw [read regA ha (by simp [registersRead]), read regB hb (by simp [registersRead])] at hc
    exact ⟨_, hc, set_agrees_or_keeps s.x y regA ha _⟩
  | @push reg h h0 h1 =>
    have hc := Completes.push (s := s.setRegs y) h h0 h1
    rw [read reg h (by simp [registersRead])] at hc
    exact ⟨y, hc, fun j => .inr ⟨rfl, rfl⟩⟩
  | @pop reg h hsp =>
    exact ⟨y.set reg.toNat (s.mem.read s.sp), .pop h hsp, set_agrees_or_keeps s.x y reg h _⟩

/-- Settles O18: from two states that differ in unread registers an instruction raises the same fault, which keeps
every register, or completes in both. -/
theorem anInstructionReadsOnlyItsTabledRegisters : Obligations.AnInstructionReadsOnlyItsTabledRegisters := by
  intro i s₁ s₂ t₁ t₂ hs hread h₁ h₂
  obtain ⟨y, rfl⟩ : ∃ y, s₂ = s₁.setRegs y := ⟨s₂.x, hs⟩
  obtain ⟨f, hf, rfl⟩ | ⟨s', hc, rfl⟩ := exec_cases h₁
  · obtain rfl := Host.Outcome.next.inj ((exec_of_raises (hf.setRegs y)).symm.trans h₂)
    exact ⟨rfl, fun j => .inr ⟨rfl, rfl⟩⟩
  · obtain ⟨y', hc', hregs⟩ := hc.setRegs hread
    obtain rfl := Host.Outcome.next.inj ((exec_of_completes hc').symm.trans h₂)
    exact ⟨rfl, hregs⟩

/-! ### The pc -/

/-- Settles O19: a fault leaves the pc and writes a record, and a completing step adds the delta of R90. -/
theorem thePcAdvancesByTheOpcodesDelta : Obligations.ThePcAdvancesByTheOpcodesDelta := by
  intro s t hs h
  obtain ⟨hrun, ⟨f, -, rfl⟩ | ⟨i, s', -, hi, hc, rfl⟩⟩ := step_inversion h
  · exact ⟨Nat.le_refl _, fun _ => rfl, fun hnone => by cases hnone⟩
  · have hpc : (s'.endStep i).pc = s.pc + pcDelta i.opcode := by rw [State.endStep_pc, hc.pc_eq]
    have hfault : (s'.endStep i).fault = none := hc.fault_eq.trans (hs.runningNoFault hrun)
    refine ⟨hpc ▸ Nat.le_add_right _ _, fun hne => absurd hfault hne, fun _ => ⟨i, hi, ?_⟩⟩
    rw [hpc]
    cases i <;> rfl

/-! ### Any number of steps -/

/-- Every state that is not HALTED has a next one: a CORE fault is a next state too (R111, R222). -/
theorem halted_or_steps (s : State) : s.run = .halted ∨ ∃ t, step s = .next t := by
  cases hrun : s.run with
  | halted => exact .inl rfl
  | running =>
    right
    cases hf : fetch s with
    | error f => exact ⟨takeFault f s, by simp only [step, hrun, hf]⟩
    | ok w =>
      cases hd : decode w with
      | error e => exact ⟨takeFault (.unknownOpcode w.opcode) s, by simp only [step, hrun, hf, hd]⟩
      | ok i => exact ⟨finish s (handlerOf i s), by simp only [step, hrun, hf, hd, exec_eq_finish]⟩

/-- What every step keeps holds after any number of steps. -/
theorem runFor_keeps {P : State → Prop} (hstep : ∀ s t, P s → step s = .next t → P t) (k : Nat) {s : State}
    (hs : P s) : P (runFor k s) := by
  induction k generalizing s with
  | zero => exact hs
  | succ k ih =>
    obtain hhalt | ⟨t, ht⟩ := halted_or_steps s
    · rwa [runFor_halted _ s hhalt]
    · rw [runFor_next k s t ht]
      exact ih (hstep s t hs ht)

/-- Running on from where a run stands is one longer run. -/
theorem runFor_add (j k : Nat) (s : State) : runFor (j + k) s = runFor k (runFor j s) := by
  induction j generalizing s with
  | zero => rw [Nat.zero_add, runFor]
  | succ j ih =>
    obtain hhalt | ⟨t, ht⟩ := halted_or_steps s
    · simp only [runFor_halted _ s hhalt]
    · rw [Nat.add_right_comm, runFor_next _ s t ht, runFor_next _ s t ht, ih]

/-- Settles O24: the invariant, kept by every step, allows a record in a HALTED state only, and that one is final. -/
theorem aFaultRecordIsWrittenOnceAndStays : Obligations.AFaultRecordIsWrittenOnceAndStays := by
  intro s j k r hs hr
  have hinv : (runFor j s).Inv := runFor_keeps (fun _ _ => step_keeps_inv) j hs
  have hhalt : (runFor j s).run = .halted := by
    cases hrun : (runFor j s).run with
    | halted => rfl
    | running =>
      rw [hinv.runningNoFault hrun] at hr
      cases hr
  exact ⟨hhalt, by rw [runFor_add, runFor_halted k _ hhalt]⟩

/-- One step appends at most one value to the output (R34). -/
theorem step_out {s t : State} (h : step s = .next t) : ∃ vs : List Byte, t.out = s.out ++ vs ∧ vs.length ≤ 1 := by
  obtain ⟨-, ⟨f, -, rfl⟩ | ⟨i, s', -, -, hc, rfl⟩⟩ := step_inversion h
  · exact ⟨[], (List.append_nil _).symm, Nat.zero_le _⟩
  · obtain hout | ⟨r, v, -, hout⟩ := hc.out_eq_or_prn
    · exact ⟨[], by rw [State.endStep_out, hout, List.append_nil], Nat.zero_le _⟩
    · exact ⟨[v], hout, Nat.le_refl _⟩

/-- Settles O28, by induction on the number of steps. -/
theorem outputOnlyGrowsByOneValueAStep : Obligations.OutputOnlyGrowsByOneValueAStep := by
  intro k
  induction k with
  | zero => exact fun s => ⟨[], (List.append_nil _).symm, Nat.le_refl _⟩
  | succ k ih =>
    intro s
    obtain hhalt | ⟨t, ht⟩ := halted_or_steps s
    · exact ⟨[], by rw [runFor_halted _ s hhalt, List.append_nil], Nat.zero_le _⟩
    · obtain ⟨us, hus, hone⟩ := step_out ht
      obtain ⟨vs, hvs, hk⟩ := ih t
      refine ⟨us ++ vs, ?_, ?_⟩
      · rw [runFor_next k s t ht, hvs, hus, List.append_assoc]
      · rw [List.length_append]
        omega

end Sys2Proof.Machine

/-! PROOFS. The memory of the CORE (20_memory.md): the byte a PUSH writes stays until another PUSH overwrites it, and
every fetch reads the memory as it then stands. -/

namespace Sys2Proof.Machine

/-! ### The step that runs a decoded instruction -/

/-- A window in memory that decodes is run as it stood at the start of the step (R119). -/
theorem step_of_currentInstr {s : State} {i : Instr} (hrun : s.run = .running) (hpc : s.pc ≤ 253)
    (hi : s.currentInstr = .ok i) : step s = exec i s := by
  unfold State.currentInstr at hi
  simp only [step, hrun, fetch_of_le s hpc, hi]

/-! ### A cell between two writes to it -/

/-- A handler that completes leaves every cell alone but the one a PUSH stores to (R21, R190). -/
theorem Completes.read_eq {s s' : State} {i : Instr} {a : Nat} (h : Completes s i s')
    (hne : ∀ r, i = .push r → pushAddress s ≠ a) : s'.mem.read a = s.mem.read a := by
  cases h with
  | push => exact s.mem.read_write_ne _ _ _ (hne _ rfl).symm
  | hlt | ldi | prn | mul | pop => rfl

/-- A step leaves every cell alone but the one the PUSH at the pc stores to (R21, R222). -/
theorem step_read_eq {s t : State} {a : Nat} (h : step s = .next t)
    (hne : ∀ r, s.currentInstr = .ok (.push r) → pushAddress s ≠ a) : t.mem.read a = s.mem.read a := by
  obtain ⟨-, ⟨f, -, rfl⟩ | ⟨i, s', -, hi, hc, rfl⟩⟩ := step_inversion h
  · rfl
  · exact hc.read_eq fun r hr => hne r (hr ▸ hi)

/-- A cell no PUSH of a run stores to keeps its byte through the run. -/
theorem runFor_read_eq {a : Nat} (k : Nat) (s : State)
    (hne : ∀ j < k, ∀ r, (runFor j s).currentInstr = .ok (.push r) → pushAddress (runFor j s) ≠ a) :
    (runFor k s).mem.read a = s.mem.read a := by
  induction k generalizing s with
  | zero => rfl
  | succ k ih =>
    obtain hhalt | ⟨t, ht⟩ := halted_or_steps s
    · rw [runFor_halted _ s hhalt]
    · have hlater : ∀ j < k, ∀ r, (runFor j t).currentInstr = .ok (.push r) → pushAddress (runFor j t) ≠ a := by
        intro j hj
        rw [← runFor_next j s t ht]
        exact hne (j + 1) (Nat.succ_lt_succ hj)
      calc (runFor (k + 1) s).mem.read a
        _ = (runFor k t).mem.read a := by rw [runFor_next k s t ht]
        _ = t.mem.read a := ih t hlater
        _ = s.mem.read a := step_read_eq ht (hne 0 (Nat.succ_pos k))

/-- A PUSH that can complete leaves its register's value in the cell it stores to (R190). -/
theorem exec_push_stores {reg : Byte} {s : State} (hreg : reg.toNat < 8) (hwf : s.mem.wf) (h0 : 0 < s.sp)
    (h1 : s.sp ≤ 256) : ∃ t, exec (.push reg) s = .next t ∧ t.fault = s.fault ∧
      t.mem.read (pushAddress s) = s.x[reg.toNat] :=
  ⟨_, exec_of_completes (.push hreg h0 h1), rfl, s.mem.read_write_same _ _ hwf⟩

/-- Settles O31: the PUSH leaves its byte in the cell, the run after it keeps it there, and a fetch reads the cells as
they stand. -/
theorem everyLaterFetchSeesAPushedByte : Obligations.EveryLaterFetchSeesAPushedByte := by
  intro reg s hreg hwf hrun h0 h1 hpc hi
  obtain ⟨t, hexec, hfault, hstored⟩ := exec_push_stores (Nat.lt_succ_of_le hreg) hwf h0 h1
  refine ⟨t, (step_of_currentInstr hrun hpc hi).trans hexec, hexec, hfault, ?_⟩
  rintro k a rfl hne hwindow
  have hkept : (runFor k t).mem.read (pushAddress s) = s.x[reg.toNat] := (runFor_read_eq k t hne).trans hstored
  exact ⟨_, fetch_of_le _ hwindow, fun ha => ha ▸ hkept, fun ha => ha ▸ hkept, fun ha => ha ▸ hkept⟩

end Sys2Proof.Machine

/-! PROOFS. The encodings of 30_encoding.md: the opcode map, the dispatch table, the decoder against the encoder, and
the program text that writes the encodings down (R102). -/

namespace Sys2Proof

/-! ### The opcode map -/

@[simp] theorem Opcode.ofByte_byte (op : Opcode) : Opcode.ofByte op.byte = some op := by
  cases op <;> rfl

/-- The look-up compares the whole byte with the six values and nothing else (R81, R95). -/
theorem Opcode.ofByte_eq_some_iff {b : Byte} {op : Opcode} : Opcode.ofByte b = some op ↔ op.byte = b := by
  constructor
  · intro h
    unfold Opcode.ofByte at h
    split_ifs at h <;> cases h
    all_goals exact Eq.symm ‹b = _›
  · rintro rfl
    exact Opcode.ofByte_byte op

theorem Opcode.ofByte_eq_none_iff {b : Byte} : Opcode.ofByte b = none ↔ ∀ op : Opcode, op.byte ≠ b := by
  simp only [Option.eq_none_iff_forall_ne_some, ne_eq, Opcode.ofByte_eq_some_iff]

theorem Opcode.byte_injective : Function.Injective Opcode.byte := fun op op' h => by
  simpa using congrArg Opcode.ofByte h

theorem Opcode.byte_mem (op : Opcode) : op.byte ∈ [0x01#8, 0x82#8, 0x47#8, 0xA2#8, 0x45#8, 0x46#8] := by
  cases op <;> decide

/-! ### The dispatch table -/

theorem dispatchTable_getElem? (b : Byte) : dispatchTable[b.toNat]? = some (Opcode.ofByte b) := by
  simp [dispatchTable, b.isLt]

/-- The defined entries, by rising opcode byte (R36). -/
theorem dispatchTable_filter_isSome : dispatchTable.filter Option.isSome =
    [some .hlt, some .push, some .pop, some .prn, some .ldi, some .mul] := by
  decide

/-- Settles O34: entry `n` is the look-up of byte `n`, and the look-up inverts the opcode map. -/
theorem theDispatchTableHasExactlySixEntries : Obligations.TheDispatchTableHasExactlySixEntries := by
  refine ⟨by simp [dispatchTable], by rw [dispatchTable_filter_isSome]; rfl, fun op => ?_, ?_, fun b hb => ?_⟩
  · rw [dispatchTable_getElem?, Opcode.ofByte_byte]
  · exact fun _ _ h => Opcode.byte_injective h
  · have hnone : Opcode.ofByte b = none := Opcode.ofByte_eq_none_iff.mpr fun op h => hb (h ▸ op.byte_mem)
    rw [dispatchTable_getElem?, hnone]

/-! ### Decoding a window -/

@[simp] theorem Opcode.opcode_instr (op : Opcode) (a b : Byte) : (op.instr a b).opcode = op := by
  cases op <;> rfl

@[simp] theorem decode_byte (op : Opcode) (a b : Byte) : decode ⟨op.byte, a, b⟩ = .ok (op.instr a b) := by
  simp [decode]

/-- A window decodes to `i` exactly where it holds the opcode of `i` and the operands `i` uses (R82 to R85). -/
theorem decode_eq_ok_iff {op a b : Byte} {i : Instr} :
    decode ⟨op, a, b⟩ = .ok i ↔ i.opcode.byte = op ∧ i.opcode.instr a b = i := by
  constructor
  · intro h
    unfold decode at h
    split at h
    next o ho =>
      cases h
      simpa using Opcode.ofByte_eq_some_iff.mp ho
    next => cases h
  · rintro ⟨rfl, hi⟩
    rw [decode_byte, hi]

/-- Settles O33, each word by the equation of its opcode. -/
theorem sampleWordsDecode : Obligations.SampleWordsDecode :=
  ⟨decode_byte .hlt _ _, decode_byte .ldi _ _, decode_byte .prn _ _, decode_byte .mul _ _, decode_byte .push _ _,
    decode_byte .pop _ _, rfl⟩

/-- In the formats `n` and `r` operand-B is read and ignored (R82, R85). -/
theorem Opcode.instr_ignores_operandB {op : Opcode} (h : op.format = .n ∨ op.format = .r) (a b b' : Byte) :
    op.instr a b = op.instr a b' := by
  cases op with
  | hlt | prn | push | pop => rfl
  | ldi | mul => simp [Opcode.format] at h

/-- Settles O35: what decodes has an opcode's byte, and what it decodes to is made by that opcode, which drops what
its format ignores. -/
theorem operandBytesAreNeverIllegal : Obligations.OperandBytesAreNeverIllegal := by
  refine ⟨?_, ?_, fun a a' b => ?_⟩
  · rintro op a b a' b' ⟨i, hi⟩
    obtain ⟨rfl, -⟩ := decode_eq_ok_iff.mp hi
    exact ⟨_, decode_byte i.opcode a' b'⟩
  · have ignored (o : Opcode) (ho : o.format = .n ∨ o.format = .r) (a b b' : Byte) :
        decode ⟨o.byte, a, b⟩ = decode ⟨o.byte, a, b'⟩ := by
      rw [decode_byte, decode_byte, Opcode.instr_ignores_operandB ho]
    intro op a b b' hop
    simp only [List.mem_cons, List.not_mem_nil, or_false] at hop
    obtain rfl | rfl | rfl | rfl := hop
    · exact ignored .hlt (.inl rfl) a b b'
    · exact ignored .prn (.inr rfl) a b b'
    · exact ignored .push (.inr rfl) a b b'
    · exact ignored .pop (.inr rfl) a b b'
  · exact (decode_byte .hlt a b).trans (decode_byte .hlt a' b).symm

/-! ### Decoding against encoding -/

/-- A window begins with the encoding of `i` exactly where it holds the opcode of `i` and the operands `i` uses
(R80, R87). -/
theorem encode_isPrefix_iff {op a b : Byte} {tail : List Byte} {i : Instr} :
    encode i <+: op :: a :: b :: tail ↔ i.opcode.byte = op ∧ i.opcode.instr a b = i := by
  cases i <;> simp [encode, Instr.opcode, Opcode.instr, eq_comm]

/-- The decoder reads `i` from bytes exactly where they fill the window and begin with the encoding of `i`. -/
theorem decodeBytes_eq_ok_iff {bytes : List Byte} {i : Instr} :
    decodeBytes bytes = .ok i ↔ 3 ≤ bytes.length ∧ encode i <+: bytes := by
  match bytes with
  | op :: a :: b :: tail =>
    have hlen : 3 ≤ (op :: a :: b :: tail).length := by simp
    rw [encode_isPrefix_iff, ← decode_eq_ok_iff, and_iff_right hlen]
    rfl
  | [] | [_] | [_, _] => simp [decodeBytes]

/-- Settles O32: decoding to `i` is filling the window and beginning with the encoding of `i`, read both ways. -/
theorem decodingAndEncodingAgree : Obligations.DecodingAndEncodingAgree := by
  refine ⟨fun i rest hlen => decodeBytes_eq_ok_iff.mpr ⟨hlen, rest, rfl⟩, fun bytes i h => ?_⟩
  obtain ⟨-, rest, rfl⟩ := decodeBytes_eq_ok_iff.mp h
  exact ⟨rest, rfl⟩

end Sys2Proof

namespace Sys2Proof.Machine

/-! ### A program text -/

/-- A line that can be loaded gives the byte of its literal, or nothing (R262). -/
theorem ProgramLine.Carries.parseLine_eq {l : ProgramLine} {ds : List Bool} (h : l.Carries ds) :
    parseLine l.text = .ok (literalByte ds) := by
  obtain ⟨hformed, hcontent, hvalue⟩ := h
  rw [parseLine_text l hformed, hcontent]
  cases ds with
  | nil => rfl
  | cons d ds =>
    have hne : digitsText (d :: ds) ≠ [] := List.cons_ne_nil _ _
    simp only [if_neg hne, parseBinary_digitsText (d :: ds) (List.cons_ne_nil _ _), if_pos hvalue]
    rfl

/-- Lines that can be loaded put the bytes of their literals, in order, before the image of the lines after them. -/
theorem assembleLines_append_of_carries (lines : List (ProgramLine × List Bool)) (rest : List (List Char))
    (h : ∀ l ∈ lines, l.1.Carries l.2) : assembleLines ((lines.map fun l => l.1.text) ++ rest) =
      (assembleLines rest).map ((lines.filterMap fun l => literalByte l.2) ++ ·) := by
  induction lines with
  | nil => cases hr : assembleLines rest <;> simp [hr, Except.map]
  | cons l lines ih =>
    obtain ⟨hl, hlines⟩ := List.forall_mem_cons.mp h
    rw [List.map_cons, List.cons_append, assembleLines, hl.parseLine_eq, ih hlines, List.filterMap_cons]
    cases literalByte l.2 <;> cases assembleLines rest <;> rfl

/-- Lines joined by newlines are the lines of the text (R102). -/
theorem splitLines_intercalate (ls : List (List Char)) (hne : ls ≠ []) (h : ∀ l ∈ ls, '\n' ∉ l) :
    splitLines (['\n'].intercalate ls) = ls := by
  induction ls with
  | nil => exact absurd rfl hne
  | cons l ls ih =>
    obtain ⟨hl, hls⟩ := List.forall_mem_cons.mp h
    cases ls with
    | nil => simpa using splitLines_last l hl
    | cons l' ls =>
      rw [List.intercalate_cons_cons, List.append_assoc, List.singleton_append, splitLines_newline l _ hl,
        ih (List.cons_ne_nil _ _) hls]

/-- Settles O37: the text splits into its lines, and each line gives its literal's byte. The text of no line at all is
one empty line, which gives none. -/
theorem aProgramTextLoadsItsBytes : Obligations.AProgramTextLoadsItsBytes := by
  intro lines h
  obtain rfl | hne := eq_or_ne lines []
  · rfl
  have hsplit : splitLines (['\n'].intercalate (lines.map fun l => l.1.text)) = lines.map fun l => l.1.text := by
    refine splitLines_intercalate _ (by simpa using hne) fun t ht => ?_
    obtain ⟨l, hl, rfl⟩ := List.mem_map.mp ht
    exact l.1.newline_not_mem_text (h l hl).1
  have himage : assembleLines (lines.map fun l => l.1.text) = .ok (lines.filterMap fun l => literalByte l.2) := by
    simpa [assembleLines, Except.map] using assembleLines_append_of_carries lines [] h
  simp only [loadText, hsplit, himage]

end Sys2Proof.Machine

/-! PROOFS. The execution engine (40_engine.md): what a step is in each branch of R119, that every run halts, and the
end of a run as the host observes it. -/

namespace Sys2Proof.Machine

/-! ### A step that raises before any handler runs -/

/-- A fault of the fetch is taken by the step itself (R113). -/
theorem step_of_fetch_error {s : State} {f : FaultCause} (hrun : s.run = .running) (hf : fetch s = .error f) :
    step s = .next (takeFault f s) := by
  simp only [step, hrun, hf]

/-- A fetched byte without a dispatch entry is a fault of the step itself (R114). -/
theorem step_of_ofByte_none {s : State} (hrun : s.run = .running) (hpc : s.pc ≤ 253)
    (hop : Opcode.ofByte (s.mem.read s.pc) = none) :
    step s = .next (takeFault (.unknownOpcode (s.mem.read s.pc)) s) := by
  simp only [step, hrun, fetch_of_le s hpc, decode, hop]

/-- A byte that is none of the six of R86 has no dispatch entry (R95). -/
theorem ofByte_eq_none_of_not_mem {b : Byte}
    (hb : b ∉ [0x01#8, 0x82#8, 0x47#8, 0xA2#8, 0x45#8, 0x46#8]) : Opcode.ofByte b = none :=
  Opcode.ofByte_eq_none_iff.mpr fun op h => hb (h ▸ op.byte_mem)

/-- Settles O5. -/
theorem stepRunsTheDecodedInstruction : Obligations.StepRunsTheDecodedInstruction :=
  fun _ _ hrun hpc hi => step_of_currentInstr hrun hpc hi

/-- Settles O6: the first of the three reads that leaves memory is that of address 256. -/
theorem fetchBeyondMemoryFaults : Obligations.FetchBeyondMemoryFaults :=
  fun s hrun hpc hbeyond => step_of_fetch_error hrun (fetch_of_ge s (by omega) hpc)

/-- Settles O7. -/
theorem unknownOpcodeFaults : Obligations.UnknownOpcodeFaults :=
  fun _ hrun hpc hop => step_of_ofByte_none hrun hpc (ofByte_eq_none_of_not_mem hop)

/-! ### RUNNING and HALTED -/

/-- Settles O8: a step starts RUNNING, and a state either is HALTED or has a step. -/
theorem onlyARunningMachineHasAStep : Obligations.OnlyARunningMachineHasAStep := by
  intro s
  refine ⟨⟨fun ⟨t, ht⟩ => (step_inversion ht).1, fun hrun => ?_⟩, fun hhalt k => runFor_halted k s hhalt⟩
  exact (halted_or_steps s).resolve_left (by simp [hrun])

/-- Settles O9: the reason a halted state gives is read off its fault record. -/
theorem haltedStepNamesItsFinalState : Obligations.HaltedStepNamesItsFinalState := by
  refine fun s => ⟨fun ⟨hhalt, hnone⟩ => ?_, fun r hhalt hr => ?_⟩
  · rw [step_halted s hhalt, haltedReason, hnone]
  · rw [step_halted s hhalt, haltedReason, hr]

/-! ### Every run halts -/

/-- No window begins at 254 or above, so a step from there can only take a fault (R113). -/
theorem step_halts_of_ge {s t : State} (hpc : 254 ≤ s.pc) (h : step s = .next t) : t.run = .halted := by
  obtain ⟨-, ⟨f, -, rfl⟩ | ⟨i, s', hlow, -, -, -⟩⟩ := step_inversion h
  · rfl
  · omega

/-- `k` steps of at least 2 bring the pc to 254, and the step from there halts. -/
theorem runFor_succ_halts (k : Nat) (s : State) (hpc : s.pc ≤ 256) (hk : 254 ≤ s.pc + 2 * k) :
    (runFor (k + 1) s).run = .halted := by
  induction k generalizing s with
  | zero =>
    obtain hhalt | ⟨t, ht⟩ := halted_or_steps s
    · rwa [runFor_halted _ s hhalt]
    · rw [runFor_next 0 s t ht]
      exact step_halts_of_ge hk ht
  | succ k ih =>
    obtain hhalt | ⟨t, ht⟩ := halted_or_steps s
    · rwa [runFor_halted _ s hhalt]
    · rw [runFor_next (k + 1) s t ht]
      obtain ⟨hpc', hhalt | ⟨-, hforward⟩⟩ := everyStepHaltsOrMovesForwardInRange s t hpc ht
      · rwa [runFor_halted _ t hhalt]
      · exact ih t hpc' (by omega)

/-- Settles O26: 127 steps bring the pc from 0 to 254 at the latest. -/
theorem everyRunHaltsWithin128Steps : Obligations.EveryRunHaltsWithin128Steps :=
  fun s hpc => runFor_succ_halts 127 s hpc (Nat.le_add_left 254 s.pc)

/-! ### The end of a run as the host sees it -/

theorem observe_of_halted {s : State} (h : s.run = .halted) : observe s = some ⟨s.out, exitStatus s, s⟩ := by
  rw [observe, h]

/-- Of a HALTED state the exit status is 0 exactly where HLT ended the run (R231, R265). -/
theorem exitStatus_eq_zero_iff {s : State} (h : s.run = .halted) : exitStatus s = 0 ↔ s.normalHalt := by
  cases hf : s.fault <;> simp [exitStatus, State.normalHalt, h, hf]

/-- Of a HALTED state the exit status is 1 exactly where a fault ended the run (R231, R265). -/
theorem exitStatus_eq_one_iff {s : State} (h : s.run = .halted) : exitStatus s = 1 ↔ s.fatalStop := by
  cases hf : s.fault <;> simp [exitStatus, State.fatalStop, h, hf]

/-- Settles O27: the load starts at pc 0, from where every run halts, and what is observed is its last state. -/
theorem everyImageRunsToAnObservedEnd : Obligations.EveryImageRunsToAnObservedEnd := by
  intro image hlen
  have hload := loadImage_of_le hlen
  have hhalt := everyRunHaltsWithin128Steps (State.reset.setMem (Memory.writeBytes [] 0 image)) (Nat.zero_le 256)
  exact ⟨_, _, hload, observe_of_halted hhalt, rfl, rfl, exitStatus_eq_zero_iff hhalt, exitStatus_eq_one_iff hhalt⟩

/-! ### A placed word -/

theorem decodeTableWord_eq_some_iff {nbits w : Nat} {i : Instr} :
    decodeTableWord nbits w = some i ↔ decode (tableWindow nbits w) = .ok i := by
  unfold decodeTableWord
  cases decode (tableWindow nbits w) <;> simp

/-- The window at the pc is that of the word placed there (R112, R262). -/
theorem currentInstr_withFetchWord {s : State} (nbits w : Nat) (hpc : s.pc ≤ 253) (hwf : s.mem.wf) :
    (s.withFetchWord nbits w).currentInstr = decode (tableWindow nbits w) := by
  have placed (k : Nat) (hk : k < 3) : (s.withFetchWord nbits w).mem.read (s.pc + k) =
      [tableByte nbits w 0, tableByte nbits w 1, tableByte nbits w 2][k] :=
    s.mem.read_writeBytes_getElem s.pc k _ hwf (by simpa using Nat.add_le_add_right hpc 3) (by simpa using hk)
  have hpc' : (s.withFetchWord nbits w).pc = s.pc + 0 := rfl
  rw [State.currentInstr, hpc', placed 0 (by decide), placed 1 (by decide), placed 2 (by decide)]
  rfl

/-- Settles O36: the placing moves neither the pc nor the run state, so the next step fetches the word's bytes. -/
theorem aPlacedWordRunsNext : Obligations.APlacedWordRunsNext := by
  intro s nbits w i hrun hpc hwf hi
  have hcurrent : (s.withFetchWord nbits w).currentInstr = .ok i :=
    (currentInstr_withFetchWord nbits w hpc hwf).trans (decodeTableWord_eq_some_iff.mp hi)
  exact step_of_currentInstr hrun hpc hcurrent

end Sys2Proof.Machine

/-! PROOFS. The ALU (41_alu.md): what the two operations compute, what `apply` does with good and with bad indices, and
MUL, which runs it. -/

namespace Sys2Proof.Machine

/-! ### The operations on naturals -/

@[simp] theorem aluAdd_toNat (a b : Byte) : (aluAdd a b).toNat = (a.toNat + b.toNat) % 256 := by
  simp [aluAdd]

@[simp] theorem aluMul_toNat (a b : Byte) : (aluMul a b).toNat = a.toNat * b.toNat % 256 := by
  simp [aluMul]

/-! ### A register written through an operand byte -/

theorem State.setReg_getElem_same (s : State) {r : Byte} (h : r.toNat < 8) (v : Byte) :
    (s.setReg ⟨r.toNat, h⟩ v).x[r.toNat] = v :=
  s.setReg_get_same ⟨r.toNat, h⟩ v

theorem State.setReg_getElem_ne (s : State) {r : Byte} (h : r.toNat < 8) (v : Byte) (j : Fin 8)
    (hj : j.val ≠ r.toNat) : (s.setReg ⟨r.toNat, h⟩ v).x[j] = s.x[j] :=
  s.setReg_get_ne ⟨r.toNat, h⟩ j v fun e => hj (congrArg Fin.val e)

/-! ### `apply` -/

section
variable (op : AluOperation) {dst src : Byte} (s : State)

/-- With good indices `apply` writes the result of the operation, where it has one, into its first register (R140). -/
theorem aluApply_of_lt (hd : dst.toNat < 8) (hs : src.toNat < 8) :
    aluApply op dst src s = (aluResult op s.x[dst.toNat] s.x[src.toNat]).map (s.setReg ⟨dst.toNat, hd⟩) := by
  rw [aluApply_spec, dif_pos hd, dif_pos hs]
  cases aluResult op s.x[dst.toNat] s.x[src.toNat] <;> rfl

theorem aluApply_of_dst_gt (hd : 7 < dst.toNat) : aluApply op dst src s = .error (.outOfRangeReg dst) := by
  rw [aluApply_spec, dif_neg (Nat.not_lt.mpr hd)]

theorem aluApply_of_src_gt (hd : dst.toNat < 8) (hs : 7 < src.toNat) :
    aluApply op dst src s = .error (.outOfRangeReg src) := by
  rw [aluApply_spec, dif_pos hd, dif_neg (Nat.not_lt.mpr hs)]

/-- An operation with a result gives it in the first register and changes nothing else, also where the two registers
are one (R140). -/
theorem aluApply_writes_result {op : AluOperation} {v : Byte} (hd : dst.toNat < 8) (hs : src.toNat < 8)
    (hv : aluResult op s.x[dst.toNat] s.x[src.toNat] = .ok v) :
    ∃ t, aluApply op dst src s = .ok t ∧ t.x[dst.toNat] = v ∧
      (∀ j : Fin 8, j.val ≠ dst.toNat → t.x[j] = s.x[j]) ∧ t = { s with x := t.x } := by
  refine ⟨s.setReg ⟨dst.toNat, hd⟩ v, ?_, s.setReg_getElem_same hd v, s.setReg_getElem_ne hd v, rfl⟩
  rw [aluApply_of_lt op s hd hs, hv]
  rfl

end

/-- Settles O16: ADD and MUL have a result on any two values, any other operation has none, and an index is checked
before either. -/
theorem aluAppliesAddAndMulModulo256 : Obligations.AluAppliesAddAndMulModulo256 := by
  intro dst src s
  refine ⟨fun hd hs => ?_, fun op => aluApply_of_dst_gt op s, fun op hd => aluApply_of_src_gt op s (by omega)⟩
  have hd' : dst.toNat < 8 := by omega
  have hs' : src.toNat < 8 := by omega
  refine ⟨?add, ?mul, fun name => aluApply_of_lt (.other name) s hd' hs'⟩
  case add =>
    obtain ⟨t, ht, hv, hframe⟩ := aluApply_writes_result (op := .add) s hd' hs' rfl
    exact ⟨t, ht, by rw [hv, aluAdd_toNat], hframe⟩
  case mul =>
    obtain ⟨t, ht, hv, hframe⟩ := aluApply_writes_result (op := .mul) s hd' hs' rfl
    exact ⟨t, ht, by rw [hv, aluMul_toNat], hframe⟩

/-! ### MUL -/

theorem firstBadRegister_mul_left {regA regB : Byte} (ha : 7 < regA.toNat) :
    firstBadRegister (.mul regA regB) = some regA := by
  simp [firstBadRegister, Instr.registerOperands, ha]

theorem firstBadRegister_mul_right {regA regB : Byte} (ha : regA.toNat ≤ 7) (hb : 7 < regB.toNat) :
    firstBadRegister (.mul regA regB) = some regB := by
  simp [firstBadRegister, Instr.registerOperands, ha, hb]

/-- Settles O13: MUL completes with the product written to its first register, or raises on its first bad operand. -/
theorem mulMultipliesIntoItsFirstRegister : Obligations.MulMultipliesIntoItsFirstRegister := by
  intro regA regB s
  refine ⟨decode_byte .mul regA regB, fun ha hb => ?completes, fun ha => ?badA, fun ha hb => ?badB⟩
  case completes =>
    have ha' : regA.toNat < 8 := by omega
    have hb' : regB.toNat < 8 := by omega
    have hproduct := (congrArg BitVec.toNat (s.setReg_getElem_same ha' _)).trans
      (aluMul_toNat s.x[regA.toNat] s.x[regB.toNat])
    exact ⟨_, exec_of_completes (.mul ha' hb'), hproduct, s.setReg_getElem_ne ha' _, rfl, rfl, rfl, rfl, rfl, rfl⟩
  case badA => exact exec_of_raises (.badRegister (firstBadRegister_mul_left ha))
  case badB => exact exec_of_raises (.badRegister (firstBadRegister_mul_right ha hb))

end Sys2Proof.Machine

/-! PROOFS. Control (42_control.md): HLT. -/

namespace Sys2Proof.Machine

/-- HLT always completes, writes nothing, and asks for a stop at its own byte (R90, R117, R118, R160). -/
theorem exec_hlt (s : State) : exec .hlt s = .next { s with run := .halted } :=
  exec_of_completes .hlt

/-- The opcode byte of HLT makes HLT the instruction at the pc, whatever the next two bytes are (R85). -/
theorem currentInstr_of_hlt_byte {s : State} (hop : s.mem.read s.pc = Opcode.hlt.byte) :
    s.currentInstr = .ok .hlt := by
  rw [State.currentInstr, hop, decode_byte]
  rfl

/-- Settles O10: with its window in memory HLT is what the step runs; at 254 and 255 the fetch raises before the opcode
is looked up. -/
theorem hltHaltsAndChangesNothingElse : Obligations.HltHaltsAndChangesNothingElse := by
  refine ⟨decode_byte .hlt, exec_hlt, fun s hrun hpc hop => ?halts, fun s hrun hpc _ => ?faults⟩
  case halts => exact (step_of_currentInstr hrun hpc (currentInstr_of_hlt_byte hop)).trans (exec_hlt s)
  case faults => exact fetchBeyondMemoryFaults s hrun (by omega) (by omega)

end Sys2Proof.Machine

/-! PROOFS. Register load (43_register.md): LDI. -/

namespace Sys2Proof.Machine

/-- Settles O11: LDI completes with the one register write of its immediate, or raises on its one register operand. -/
theorem ldiLoadsItsImmediate : Obligations.LdiLoadsItsImmediate := by
  intro reg imm s
  refine ⟨decode_byte .ldi reg imm, fun hreg => ?completes, fun hreg => ?badRegister⟩
  case completes =>
    have hreg' : reg.toNat < 8 := by omega
    exact ⟨_, exec_of_completes (.ldi hreg'), s.setReg_getElem_same hreg' imm, s.setReg_getElem_ne hreg' imm,
      rfl, rfl, rfl, rfl, rfl, rfl⟩
  case badRegister =>
    have hbad : firstBadRegister (.ldi reg imm) = some reg := firstBadRegister_single rfl (by omega)
    exact exec_of_raises (.badRegister hbad)

end Sys2Proof.Machine

/-! PROOFS. Output (44_output.md): PRN. -/

namespace Sys2Proof.Machine

/-- Settles O12: PRN completes with its register's value emitted, or raises on its one register operand. -/
theorem prnEmitsItsRegister : Obligations.PrnEmitsItsRegister := by
  intro reg s
  refine ⟨decode_byte .prn reg, fun hreg => ?completes, fun hreg => ?badRegister⟩
  case completes =>
    have hreg' : reg.toNat < 8 := by omega
    exact ⟨_, exec_of_completes (.prn hreg'), rfl, rfl, rfl, rfl, rfl, rfl, rfl⟩
  case badRegister =>
    have hbad : firstBadRegister (.prn reg) = some reg := firstBadRegister_single rfl (by omega)
    exact exec_of_raises (.badRegister hbad)

end Sys2Proof.Machine

/-! PROOFS. The stack (45_stack.md): PUSH and POP, one after the other, and as many of each as there is room for. -/

namespace Sys2Proof.Machine

/-! ### PUSH and POP -/

/-- Settles O14: PUSH completes with its register's value in the one cell it writes, or raises on its register operand,
or on a full stack. -/
theorem pushStoresBelowTheStackPointer : Obligations.PushStoresBelowTheStackPointer := by
  intro reg s
  refine ⟨decode_byte .push reg, fun hreg hwf h0 h1 => ?completes, fun hreg => ?badRegister, fun hreg h0 => ?overflow⟩
  case completes =>
    refine ⟨_, exec_of_completes (.push (Nat.lt_succ_of_le hreg) h0 h1), ?_, rfl, rfl, rfl, rfl, rfl⟩
    rintro _ rfl
    exact ⟨Nat.sub_add_cancel h0, rfl, s.mem.read_write_same _ _ hwf, fun c hc => s.mem.read_write_ne _ c _ hc⟩
  case badRegister =>
    have hbad : firstBadRegister (.push reg) = some reg := firstBadRegister_single rfl (by omega)
    exact exec_of_raises (.badRegister hbad)
  case overflow => exact exec_of_raises (.overflow (Nat.lt_succ_of_le hreg) h0)

/-- Settles O15: POP completes with the one register write of the top cell, or raises on its register operand, or on an
empty stack. -/
theorem popLoadsTheTopOfTheStack : Obligations.PopLoadsTheTopOfTheStack := by
  intro reg s
  refine ⟨decode_byte .pop reg, fun hreg hsp => ?completes, fun hreg => ?badRegister, fun hreg hsp => ?underflow⟩
  case completes =>
    have hreg' : reg.toNat < 8 := Nat.lt_succ_of_le hreg
    exact ⟨_, exec_of_completes (.pop hreg' hsp), s.setReg_getElem_same hreg' _, s.setReg_getElem_ne hreg' _,
      rfl, rfl, rfl, rfl, rfl, rfl⟩
  case badRegister =>
    have hbad : firstBadRegister (.pop reg) = some reg := firstBadRegister_single rfl (by omega)
    exact exec_of_raises (.badRegister hbad)
  case underflow => exact exec_of_raises (.underflow (Nat.lt_succ_of_le hreg) hsp)

/-- Settles O29: the POP reads the cell the PUSH stored to, and clears nothing. -/
theorem pushThenPopMovesTheValue : Obligations.PushThenPopMovesTheValue := by
  intro reg reg2 s hreg hreg2 hwf h0 h1
  obtain ⟨-, hpush, -, -⟩ := pushStoresBelowTheStackPointer reg s
  obtain ⟨t, ht, hcell, htx, htpc, -⟩ := hpush hreg hwf h0 h1
  obtain ⟨hsp, htsp, hstored, -⟩ := hcell _ rfl
  obtain ⟨-, hpop, -, -⟩ := popLoadsTheTopOfTheStack reg2 t
  obtain ⟨u, hu, huv, hux, husp, humem, hupc, -⟩ := hpop hreg2 (by omega)
  have hvalue : t.mem.read t.sp = s.x[reg.toNat] := htsp ▸ hstored
  refine ⟨t, u, ht, hu, huv.trans hvalue, fun j hj => ?_, by omega, ?_, by omega⟩
  · rw [hux j hj, htx]
  · rw [humem]
    exact hstored

/-! ### Instructions one after the other -/

theorem execSeq_cons_of_next {i : Instr} {s t : State} (h : exec i s = .next t) (hrun : t.run = .running)
    (is : List Instr) : execSeq (i :: is) s = execSeq is t := by
  simp [execSeq, h, hrun]

theorem exec_keeps_wf {i : Instr} {s t : State} (h : exec i s = .next t) (hwf : s.mem.wf) : t.mem.wf := by
  obtain ⟨f, -, rfl⟩ | ⟨s', hc, rfl⟩ := exec_cases h
  · exact hwf
  · exact hc.mem_wf hwf

/-! ### The cells at the top of the stack -/

/-- The `n` cells from the stack pointer upward, the most recently pushed first (R29). -/
def State.topCells (s : State) (n : Nat) : List Byte := (List.range' s.sp n).map s.mem.read

@[simp] theorem State.topCells_zero (s : State) : s.topCells 0 = [] := rfl

/-- A PUSH from `s` to `t`, and a POP from `t` to `s`, have this in common: `t` has one more cell on its stack. -/
theorem State.topCells_succ {s t : State} (hsp : t.sp + 1 = s.sp)
    (hkept : ∀ c, c ≠ t.sp → t.mem.read c = s.mem.read c) (n : Nat) :
    t.topCells (n + 1) = t.mem.read t.sp :: s.topCells n := by
  rw [State.topCells, List.range'_succ, List.map_cons, hsp]
  congr 1
  refine List.map_congr_left fun c hc => hkept c ?_
  have := List.mem_range'_1.mp hc
  omega

/-- One PUSH puts its register's value before the cells that were at the top (R190). -/
theorem exec_push_topCells {r : Byte} {s : State} (hr : r.toNat ≤ 7) (hwf : s.mem.wf) (h0 : 0 < s.sp)
    (h1 : s.sp ≤ 256) :
    ∃ t, exec (.push r) s = .next t ∧ t.run = .running ∧ t.mem.wf ∧ t.sp + 1 = s.sp ∧ t.x = s.x ∧ t.out = s.out ∧
      ∀ n, t.topCells (n + 1) = (s.x[r.toNat]?).getD 0#8 :: s.topCells n := by
  obtain ⟨-, hpush, -, -⟩ := pushStoresBelowTheStackPointer r s
  obtain ⟨t, ht, hcell, hx, -, hrun, -, hout⟩ := hpush hr hwf h0 h1
  obtain ⟨hsp, htsp, hstored, hkept⟩ := hcell _ rfl
  rw [← htsp] at hsp hstored hkept
  refine ⟨t, ht, hrun, exec_keeps_wf ht hwf, hsp, hx, hout, fun n => ?_⟩
  rw [State.topCells_succ hsp hkept, hstored, Vector.getElem?_eq_getElem (Nat.lt_succ_of_le hr), Option.getD_some]

/-- One POP and one PRN emit the top cell and leave it behind (R180, R195). -/
theorem execSeq_pop_prn {d : Byte} {s : State} (hd : d.toNat ≤ 7) (hsp : s.sp < 256) (is : List Instr) :
    ∃ u, execSeq (.pop d :: .prn d :: is) s = execSeq is u ∧ u.sp = s.sp + 1 ∧ u.mem = s.mem ∧
      u.out = s.out ++ [s.mem.read s.sp] := by
  obtain ⟨-, hpop, -, -⟩ := popLoadsTheTopOfTheStack d s
  obtain ⟨t, ht, htd, -, htsp, htmem, -, htrun, -, htout⟩ := hpop hd hsp
  obtain ⟨-, hprn, -⟩ := prnEmitsItsRegister d t
  obtain ⟨u, hu, huout, -, -, hurun, humem, husp, -⟩ := hprn hd
  refine ⟨u, ?_, husp.trans htsp, humem.trans htmem, by rw [huout, htout, htd]⟩
  rw [execSeq_cons_of_next ht htrun, execSeq_cons_of_next hu hurun]

/-- PUSHes there is room for put the registers' values before the cells that were at the top, the last one first. -/
theorem execSeq_pushes (regs : List Byte) (s : State) (hwf : s.mem.wf) (hsp : s.sp ≤ 256) (hroom : regs.length ≤ s.sp)
    (hregs : ∀ r ∈ regs, r.toNat ≤ 7) :
    ∃ t, execSeq (regs.map .push) s = some t ∧ t.sp + regs.length = s.sp ∧ t.out = s.out ∧
      ∀ n, t.topCells (regs.length + n) = (regs.map fun r => (s.x[r.toNat]?).getD 0#8).reverse ++ s.topCells n := by
  induction regs generalizing s with
  | nil => exact ⟨s, rfl, rfl, rfl, fun n => by simp⟩
  | cons r rs ih =>
    obtain ⟨hr, hrs⟩ := List.forall_mem_cons.mp hregs
    rw [List.length_cons] at hroom
    obtain ⟨s', hpush, hrun, hwf', hsp', hx, hout, hcells⟩ := exec_push_topCells hr hwf (by omega) hsp
    obtain ⟨t, ht, htsp, htout, htop⟩ := ih s' hwf' (by omega) (by omega) hrs
    refine ⟨t, (execSeq_cons_of_next hpush hrun _).trans ht, ?_, htout.trans hout, fun n => ?_⟩
    · rw [List.length_cons]; omega
    · rw [List.length_cons, Nat.add_right_comm, Nat.add_assoc, htop (n + 1)]
      simp [hcells, hx]

/-- POP and PRN, as many times as there are cells to pop, emit the cells at the top as they stand. -/
theorem execSeq_popPrints {α : Type} (l : List α) {d : Byte} (hd : d.toNat ≤ 7) (s : State)
    (hroom : s.sp + l.length ≤ 256) :
    ∃ u, execSeq (l.flatMap fun _ => [.pop d, .prn d]) s = some u ∧ u.sp = s.sp + l.length ∧
      u.out = s.out ++ s.topCells l.length := by
  induction l generalizing s with
  | nil => exact ⟨s, rfl, rfl, by simp⟩
  | cons a l ih =>
    rw [List.length_cons] at hroom
    obtain ⟨s', hseq, hsp, hmem, hout⟩ := execSeq_pop_prn hd (show s.sp < 256 by omega)
      (l.flatMap fun _ => [.pop d, .prn d])
    obtain ⟨u, hu, husp, huout⟩ := ih s' (by omega)
    refine ⟨u, hseq.trans hu, by rw [List.length_cons]; omega, ?_⟩
    rw [huout, hout, List.length_cons, State.topCells_succ hsp.symm (fun c _ => by rw [hmem]), List.append_assoc,
      List.singleton_append]

/-- Settles O30: the PUSHes leave their values at the top, the last one first, and the POPs take them from there. -/
theorem theStackIsLastInFirstOut : Obligations.TheStackIsLastInFirstOut := by
  intro s regs d hwf hsp hroom hregs hd
  obtain ⟨t, ht, htsp, htout, htop⟩ := execSeq_pushes regs s hwf hsp hroom hregs
  obtain ⟨u, hu, husp, huout⟩ := execSeq_popPrints regs hd t (by omega)
  refine ⟨t, u, ht, htsp, hu, husp.trans htsp, ?_⟩
  rw [huout, htout]
  simpa using htop 0

end Sys2Proof.Machine

/-! PROOFS. Faults (60_exceptions.md): what the fault entry changes, which fault a step reports, how a run may end, what
the host reports of a fatal stop, and the refusals of its loader. -/

namespace Sys2Proof.Machine

/-! ### The fault entry -/

/-- Under the invariant a step that completes leaves no record (R33). -/
theorem Completes.endStep_fault_eq_none {s s' : State} {i : Instr} (h : Completes s i s') (hs : s.Inv)
    (hrun : s.run = .running) : (s'.endStep i).fault = none :=
  h.fault_eq.trans (hs.runningNoFault hrun)

/-- Under the invariant a record after a step is that of the fault the step has just taken (R33, R222). -/
theorem step_takes_recorded_fault {s t : State} {r : FaultRecord} (hs : s.Inv) (h : step s = .next t)
    (hr : t.fault = some r) : ∃ f, StepRaises s f ∧ t = takeFault f s ∧ r = f.record s.pc := by
  obtain ⟨hrun, ⟨f, hf, rfl⟩ | ⟨i, s', -, -, hc, rfl⟩⟩ := step_inversion h
  · exact ⟨f, hf, rfl, by simpa using hr.symm⟩
  · rw [hc.endStep_fault_eq_none hs hrun] at hr
    cases hr

/-- Settles O20: the step has taken the fault whose record it leaves, and a fault entry writes `run` and `fault`. -/
theorem aFaultChangesOnlyRunAndRecord : Obligations.AFaultChangesOnlyRunAndRecord := by
  intro s t r hs h hr
  obtain ⟨f, -, rfl, rfl⟩ := step_takes_recorded_fault hs h hr
  refine ⟨rfl, rfl, ?_⟩
  cases f <;> rfl

/-! ### The order of priority -/

/-- The first bad register operand is operand-A, or else operand-B of MUL (R145, R220). -/
theorem firstBadRegister_instr {op : Opcode} {a b r : Byte} (h : firstBadRegister (op.instr a b) = some r) :
    (7 < a.toNat ∧ r = a) ∨ (¬ 7 < a.toNat ∧ op = .mul ∧ 7 < b.toNat ∧ r = b) := by
  have single (h : [a].find? (fun r => 7 < r.toNat) = some r) : 7 < a.toNat ∧ r = a := by
    obtain ⟨hbad, rfl⟩ : 7 < a.toNat ∧ a = r := by simpa using h
    exact ⟨hbad, rfl⟩
  cases op with
  | hlt => cases h
  | ldi | prn | push | pop => exact .inl (single h)
  | mul =>
    by_cases ha : 7 < a.toNat
    · rw [Opcode.instr, firstBadRegister_mul_left ha] at h
      cases h
      exact .inl ⟨ha, rfl⟩
    · obtain ⟨hb, rfl⟩ : 7 < b.toNat ∧ b = r := by
        simpa [firstBadRegister, Instr.registerOperands, Opcode.instr, ha] using h
      exact .inr ⟨ha, rfl, hb, rfl⟩

/-- What a handler raises: operand-A first, then operand-B of MUL, then the stack bound (R220). -/
theorem Raises.eq_first {s : State} {op : Opcode} {a b : Byte} {f : FaultCause} (h : Raises s (op.instr a b) f)
    (hsp : s.sp ≤ 256) :
    f = if 7 < a.toNat then .outOfRangeReg a
      else if op = .mul ∧ 7 < b.toNat then .outOfRangeReg b
      else if op = .push then .stackOverflow 0
      else .stackUnderflow 256 := by
  generalize hi : op.instr a b = i at h
  cases h with
  | badRegister h =>
    subst hi
    obtain ⟨ha, rfl⟩ | ⟨ha, rfl, hb, rfl⟩ := firstBadRegister_instr h
    · rw [if_pos ha]
    · rw [if_neg ha, if_pos ⟨rfl, hb⟩]
  | overflow h h0 =>
    cases op <;> cases hi
    simp [show ¬ 7 < a.toNat by omega]
  | underflow h h256 =>
    cases op <;> cases hi
    simp [show ¬ 7 < a.toNat by omega]
  | pushBeyond h hbeyond => omega
  | popBeyond h hbeyond => omega

/-- A byte without a dispatch entry is none of the six of R86. -/
theorem not_mem_of_ofByte_eq_none {b : Byte} (h : Opcode.ofByte b = none) :
    b ∉ [0x01#8, 0x82#8, 0x47#8, 0xA2#8, 0x45#8, 0x46#8] := by
  intro hb
  simp only [List.mem_cons, List.not_mem_nil, or_false] at hb
  obtain rfl | rfl | rfl | rfl | rfl | rfl := hb <;> cases h

/-- Settles O21: the fault is raised in the fetch, in the look-up or in the handler, and each of the three comes only
after the ones before it have passed. -/
theorem faultsAreReportedInTheOrderOfPriority : Obligations.FaultsAreReportedInTheOrderOfPriority := by
  intro s t r hs h hr
  obtain ⟨f, hf, -, rfl⟩ := step_takes_recorded_fault hs h hr
  dsimp only
  cases hf with
  | fetch hpc ha =>
    obtain rfl := ha hs.pcRange
    rw [if_pos hpc]
    rfl
  | lookUp hpc hop =>
    rw [if_neg (by omega), if_pos (not_mem_of_ofByte_eq_none hop)]
    rfl
  | @handler i f hpc hi hraise =>
    obtain ⟨hop, hinstr⟩ := decode_eq_ok_iff.mp hi
    rw [← hinstr] at hraise
    have hmul : i.opcode.byte = 0xA2#8 ↔ i.opcode = .mul := Opcode.byte_injective.eq_iff (b := .mul)
    have hpush : i.opcode.byte = 0x45#8 ↔ i.opcode = .push := Opcode.byte_injective.eq_iff (b := .push)
    rw [if_neg (by omega), ← hop, if_neg (not_not_intro i.opcode.byte_mem), hraise.eq_first hs.spRange]
    simp only [hmul, hpush, apply_ite (FaultCause.record · s.pc)]
    rfl

/-! ### The end of a run -/

/-- HLT is the one instruction that asks for a stop (R117, R160). -/
theorem eq_hlt_of_halts {i : Instr} (h : runOf (continueFlag i.opcode) = .halted) : i = .hlt := by
  cases i with
  | hlt => rfl
  | ldi | prn | mul | push | pop => cases h

/-- Settles O23: a step takes a fault, or completes without a record and halts only under HLT. -/
theorem aRunEndsOnlyByHltOrByAFault : Obligations.ARunEndsOnlyByHltOrByAFault := by
  intro s t hs h
  obtain ⟨hrun, ⟨f, -, rfl⟩ | ⟨i, s', -, hi, hc, rfl⟩⟩ := step_inversion h
  · exact ⟨fun _ => .inr ⟨rfl, _, rfl⟩, fun hgo => by cases hgo⟩
  · have hnone := hc.endStep_fault_eq_none hs hrun
    refine ⟨fun hhalt => .inl ⟨⟨hhalt, hnone⟩, ?_⟩, fun _ => hnone⟩
    rw [hi, eq_hlt_of_halts hhalt]

/-! ### The host's report of a fatal stop -/

theorem faultReport_eq_instructionNotFound_iff {r : FaultRecord} {op : Byte} :
    faultReport r = .instructionNotFound op ↔ r.info = .opcode op := by
  unfold faultReport
  cases r.info <;> simp

theorem faultReport_of_info_ne_opcode {r : FaultRecord} (h : ∀ op, r.info ≠ .opcode op) :
    faultReport r = .faultOf r := by
  unfold faultReport
  cases hinfo : r.info with
  | opcode op => exact absurd hinfo (h op)
  | address | index | stackPointer | operation => rfl

/-- A record that tells the truth carries an opcode byte exactly where its kind is the unknown opcode (R211). -/
theorem FaultRecord.tells.kind_eq_unknownOpcode_iff {r : FaultRecord} {s : State} (h : r.tells s) :
    r.kind = .unknownOpcode ↔ ∃ op, r.info = .opcode op := by
  obtain ⟨-, h⟩ := h
  split at h
  case h_1 hkind hinfo | h_2 hkind hinfo | h_3 hkind hinfo | h_4 hkind hinfo | h_5 hkind hinfo => simp [hkind, hinfo]
  case h_6 => exact h.elim

/-- Settles O40: the report is read off the record's info, which tells the truth about its kind. -/
theorem theHostReportsAFatalStopByItsRecord : Obligations.TheHostReportsAFatalStopByItsRecord := by
  intro s r hs hr
  have hkind := (hs.recordTells r hr).kind_eq_unknownOpcode_iff
  refine ⟨by rw [exitStatus, hr], fun op => ?_, fun hne => ?_⟩
  · rw [faultReport_eq_instructionNotFound_iff, iff_and_self]
    exact fun hinfo => hkind.mpr ⟨op, hinfo⟩
  · exact faultReport_of_info_ne_opcode fun op hinfo => hne (hkind.mpr ⟨op, hinfo⟩)

/-! ### Lines the loader refuses -/

/-- A line whose remainder holds anything but binary digits is no literal (R263). -/
theorem ProgramLine.Malformed.parseLine_eq {l : ProgramLine} (h : l.Malformed) :
    parseLine l.text = .error .malformedProgram := by
  obtain ⟨hformed, c, hc, hother⟩ := h
  rw [parseLine_text l hformed, if_neg (List.ne_nil_of_mem hc), parseBinary_of_other _ ⟨c, hc, hother⟩]

/-- A literal of 256 or more is refused whatever its length (R262). -/
theorem ProgramLine.TooLarge.parseLine_eq {l : ProgramLine} (h : l.TooLarge) :
    parseLine l.text = .error .literalTooLarge := by
  obtain ⟨hformed, ds, hcontent, hlarge⟩ := h
  have hne : ds ≠ [] := by
    rintro rfl
    cases hlarge
  rw [parseLine_text l hformed, hcontent, if_neg (by simpa [digitsText] using hne), parseBinary_digitsText ds hne]
  exact if_neg (by omega)

/-- A malformed or too large line is formed, and its parsing fails. -/
theorem ProgramLine.formed_and_refused {l : ProgramLine} (h : l.Malformed ∨ l.TooLarge) :
    l.Formed ∧ ∃ e, parseLine l.text = .error e :=
  h.elim (fun h => ⟨h.1, _, h.parseLine_eq⟩) fun h => ⟨h.1, _, h.parseLine_eq⟩

/-! ### A refused line in a text -/

/-- A line at the head of a text, with nothing or a newline after it, is the first line of the text (R102). -/
theorem splitLines_head {l after : List Char} (hl : '\n' ∉ l) (hafter : after = [] ∨ after.head? = some '\n') :
    ∃ post, splitLines (l ++ after) = l :: post := by
  obtain rfl | hnewline := hafter
  · exact ⟨[], by rw [List.append_nil, splitLines_last l hl]⟩
  · obtain ⟨rest, rfl⟩ := List.head?_eq_some_iff.mp hnewline
    exact ⟨splitLines rest, splitLines_newline l rest hl⟩

/-- What ends with a newline only puts lines before those of what follows it (R102). -/
theorem splitLines_after {before : List Char} (h : before = [] ∨ before.getLast? = some '\n') (rest : List Char) :
    ∃ pre, splitLines (before ++ rest) = pre ++ splitLines rest := by
  obtain rfl | hnewline := h
  · exact ⟨[], rfl⟩
  · obtain ⟨b, rfl⟩ := List.getLast?_eq_some_iff.mp hnewline
    exact ⟨splitLines b, by rw [List.append_assoc, List.singleton_append, splitLines_append]⟩

/-- Lines each ended by a newline come, one by one, before those of what follows them (R102). -/
theorem splitLines_flatMap_newline (ls : List (List Char)) (rest : List Char) (h : ∀ l ∈ ls, '\n' ∉ l) :
    splitLines ((ls.flatMap fun l => l ++ ['\n']) ++ rest) = ls ++ splitLines rest := by
  induction ls with
  | nil => rfl
  | cons l ls ih =>
    obtain ⟨hl, hls⟩ := List.forall_mem_cons.mp h
    rw [List.flatMap_cons, List.append_assoc, List.append_assoc, List.singleton_append, splitLines_newline l _ hl,
      ih hls, List.cons_append]

theorem assembleLines_cons_of_error {l : List Char} {e : LoadError} (h : parseLine l = .error e)
    (ls : List (List Char)) : assembleLines (l :: ls) = .error e := by
  rw [assembleLines, h]

/-- One refused line refuses them all, though one before it may name the error. -/
theorem assembleLines_of_refused (pre post : List (List Char)) {l : List Char} (h : ∃ e, parseLine l = .error e) :
    ∃ e, assembleLines (pre ++ l :: post) = .error e := by
  induction pre with
  | nil =>
    obtain ⟨e, he⟩ := h
    exact ⟨e, assembleLines_cons_of_error he post⟩
  | cons p pre ih =>
    obtain ⟨e, he⟩ := ih
    rw [List.cons_append, assembleLines, he]
    cases parseLine p with
    | error e' => exact ⟨e', rfl⟩
    | ok byte => cases byte <;> exact ⟨e, rfl⟩

/-- A text whose lines are refused is not loaded, and starts no run (R263, R267). -/
theorem loadText_and_invoke_of_error {text : List Char} {e : LoadError}
    (h : assembleLines (splitLines text) = .error e) : loadText text = .error e ∧ invoke text = .error e := by
  have hload : loadText text = .error e := by rw [loadText, h]
  exact ⟨hload, by rw [invoke, hload]⟩

theorem loadImage_of_gt {image : List Byte} (h : 256 < image.length) : loadImage image = .error .imageTooLong :=
  if_neg (Nat.not_le_of_gt h)

/-- Settles O38: the bad line is one of the lines of the text, wherever it stands, and one refused line is enough. -/
theorem theHostRefusesABadImageOrLine : Obligations.TheHostRefusesABadImageOrLine := by
  refine ⟨fun _ => loadImage_of_gt, fun _ h => h.parseLine_eq, fun _ h => h.parseLine_eq, ?_⟩
  intro l before after hbad hbefore hafter
  obtain ⟨hformed, hrefused⟩ := ProgramLine.formed_and_refused hbad
  obtain ⟨pre, hpre⟩ := splitLines_after hbefore (l.text ++ after)
  obtain ⟨post, hpost⟩ := splitLines_head (l.newline_not_mem_text hformed) hafter
  obtain ⟨e, he⟩ := assembleLines_of_refused pre post hrefused
  refine ⟨e, loadText_and_invoke_of_error ?_⟩
  rw [List.append_assoc, hpre, hpost, he]

/-- After lines that load, the first refused line names the error of the whole text (R263, log entry 10). -/
theorem loadText_and_invoke_of_first_error {lines : List (ProgramLine × List Bool)} {bad : ProgramLine}
    {after : List Char} {e : LoadError} (hlines : ∀ l ∈ lines, l.1.Carries l.2)
    (hafter : after = [] ∨ after.head? = some '\n') (hformed : bad.Formed) (he : parseLine bad.text = .error e) :
    loadText ((lines.flatMap fun l => l.1.text ++ ['\n']) ++ bad.text ++ after) = .error e ∧
      invoke ((lines.flatMap fun l => l.1.text ++ ['\n']) ++ bad.text ++ after) = .error e := by
  obtain ⟨post, hpost⟩ := splitLines_head (bad.newline_not_mem_text hformed) hafter
  have hplain : ∀ t ∈ lines.map fun l => l.1.text, '\n' ∉ t := by
    intro t ht
    obtain ⟨l, hl, rfl⟩ := List.mem_map.mp ht
    exact l.1.newline_not_mem_text (hlines l hl).1
  have hsplit := splitLines_flatMap_newline (lines.map fun l => l.1.text) (bad.text ++ after) hplain
  rw [List.flatMap_map, hpost] at hsplit
  apply loadText_and_invoke_of_error
  rw [List.append_assoc, hsplit, assembleLines_append_of_carries lines _ hlines, assembleLines_cons_of_error he]
  rfl

/-- Settles O39: a malformed and a too large line each fail with their own error, and no line before them fails. -/
theorem theFirstBadLineNamesTheRefusal : Obligations.TheFirstBadLineNamesTheRefusal := by
  intro lines bad after hlines hafter
  exact ⟨fun h => loadText_and_invoke_of_first_error hlines hafter h.1 h.parseLine_eq,
    fun h => loadText_and_invoke_of_first_error hlines hafter h.1 h.parseLine_eq⟩

end Sys2Proof.Machine

/-! PROOFS. The rules software must respect (70_reset_and_hazards.md): a step completes exactly where they are met. -/

namespace Sys2Proof.Machine

/-- The instruction `i` respects the rules of R272 in `s`, but for the window it was fetched from: its register
operands (b), and room for a PUSH and a byte for a POP (c). -/
def State.MeetsRules (s : State) (i : Instr) : Prop :=
  i.wellFormed = true ∧ (∀ r, i = .push r → 0 < s.sp) ∧ (∀ r, i = .pop r → s.sp < 256)

/-- An instruction is well-formed exactly where no register operand is bad (R25, R272). -/
theorem wellFormed_iff_firstBadRegister_eq_none {i : Instr} : i.wellFormed = true ↔ firstBadRegister i = none := by
  simp [Instr.wellFormed, firstBadRegister, List.find?_eq_none]

theorem Completes.wellFormed {s s' : State} {i : Instr} (h : Completes s i s') : i.wellFormed = true := by
  cases hbad : firstBadRegister i with
  | none => exact wellFormed_iff_firstBadRegister_eq_none.mpr hbad
  | some r => cases (handlerOf_of_completes h).symm.trans (handlerOf_of_badRegister hbad s)

/-- What completes has respected the rules. -/
theorem Completes.meetsRules {s s' : State} {i : Instr} (h : Completes s i s') : s.MeetsRules i := by
  refine ⟨h.wellFormed, ?_, ?_⟩
  · rintro r rfl
    cases h with | push _ h0 => exact h0
  · rintro r rfl
    cases h with | pop _ hsp => exact hsp

/-- Every fault a handler raises in a run is of a rule that was not respected. -/
theorem Raises.not_meetsRules {s : State} {i : Instr} {f : FaultCause} (h : Raises s i f) (hsp : s.sp ≤ 256) :
    ¬ s.MeetsRules i := by
  rintro ⟨hregs, hroom, hbyte⟩
  cases h with
  | badRegister h =>
    rw [wellFormed_iff_firstBadRegister_eq_none.mp hregs] at h
    cases h
  | overflow h h0 => exact Nat.ne_of_gt (hroom _ rfl) h0
  | underflow h h256 => exact Nat.ne_of_lt (hbyte _ rfl) h256
  | pushBeyond h hbeyond => omega
  | popBeyond h hbeyond => omega

/-- Where the window lies in memory and decodes, only the handler is left to raise a fault (R113, R114). -/
theorem StepRaises.raises_of_currentInstr {s : State} {f : FaultCause} {i : Instr} (h : StepRaises s f)
    (hpc : s.pc ≤ 253) (hi : s.currentInstr = .ok i) : Raises s i f := by
  cases h with
  | fetch hlow ha => omega
  | lookUp hpc hnone =>
    obtain ⟨hop, -⟩ := decode_eq_ok_iff.mp hi
    rw [← hop, Opcode.ofByte_byte] at hnone
    cases hnone
  | handler _ hi' hraise =>
    cases hi.symm.trans hi'
    exact hraise

/-- Settles O22: what a step completes has respected the rules, and each fault a step can take breaks one of them. -/
theorem aStepCompletesExactlyWhereItsRulesAreMet : Obligations.AStepCompletesExactlyWhereItsRulesAreMet := by
  intro s t hs h
  obtain ⟨hrun, ⟨f, hf, rfl⟩ | ⟨i, s', hpc, hi, hc, rfl⟩⟩ := step_inversion h
  · refine ⟨nofun, fun ⟨hpc, i, hi, hrules⟩ => ?_⟩
    exact absurd hrules ((hf.raises_of_currentInstr hpc hi).not_meetsRules hs.spRange)
  · exact ⟨fun _ => ⟨hpc, i, hi, hc.meetsRules⟩, fun _ => hc.endStep_fault_eq_none hs hrun⟩

end Sys2Proof.Machine
